-- ==== Sys2Proof/Word.lean ====
section
/-! DEFINITION. The word types: a byte (rule R11), a window offset of 6 bits (rules R10, R50) and a block of
16 bytes (rules R8, R12). -/

namespace Sys2Proof

/-- An unsigned 8-bit value, bit 0 the least significant (rule R11). -/
abbrev Byte := BitVec 8

/-- A window offset 0x00..0x3F: the window is 64 bytes (rules R10, R50). -/
abbrev Offset := BitVec 6

/-- A 16-byte array, byte 0 first (rules R8, R12). Byte i sits at the window offset of its base plus i (R58). -/
abbrev Block := Vector Byte 16

end Sys2Proof
end

