-- ==== Sys2Proof/Config.lean ====
section
/-! DEFINITION. What an implementation fixes: the algorithm's named constants (rule R8), the open parameters of
rule R9, and the free values. -/

namespace Sys2Proof.Config

/-- BLOCK_BYTES (rule R8). `Block`, the type of a register array, has this many bytes. -/
def blockBytes : Nat := 16

/-- ROUNDS (rule R8): round indices 0..14. -/
def rounds : Nat := 15

/-- RC_BASE (rule R8). -/
def rcBase : Byte := 0x4D

/-- PW_MIN_LEN (rule R8). -/
def pwMinLen : Nat := 8

/-- PW_MAX_LEN (rule R8). -/
def pwMaxLen : Nat := 16

/-- PW_CHAR_MIN (rule R8). -/
def pwCharMin : Byte := 0x21

/-- PW_CHAR_MAX (rule R8). -/
def pwCharMax : Byte := 0x7E

/-- RSIZE_MIN (rule R8). -/
def rsizeMin : Nat := 1

/-- RSIZE_MAX (rule R8). -/
def rsizeMax : Nat := 16

/-- REG_BASE (rules R9, R50): the bus address of offset 0x00. Any address the platform chooses. -/
opaque regBase : Nat

/-- `draw()` (rules R14, R151) and the parameter ENTROPY (R9): the byte of the n-th draw, under no law. The counter n
is `State.drawn`. Assumption log, entry 2 (DESIGN CHOICE). -/
opaque draw : Nat → Byte

/-- The byte a host variable holds before any `rd` has written it: the spec is silent, so it is free. Assumption log,
entry 6 (DESIGN CHOICE). -/
opaque unsetVar : Nat → Byte

/-- How many host turns pass before the n-th turn of the core, once the listed turns are used up (rules R208, R209, R212):
finite, under no other law. The counter n is `State.gaps` alone: the gap is no function of the command or of RSIZE, though
R211 leaves it to the implementation whether LAT(ENC) depends on RSIZE. Assumption log, entries 4 and 19 (DESIGN
CHOICE). -/
opaque coreGap : Nat → Nat

end Sys2Proof.Config
end

