-- ==== Sys2Proof/Syntax.lean ====
section
/-! DEFINITION. The commands of FC-CMD revision 1 (rules R2, R82): one constructor per command. The 15 RKEY rows of the
opcode table are one command with the immediate r = CMD[3:0] (rule R81). -/

namespace Sys2Proof

/-- A command. Every operand but RKEY's round index is implicit (rule R81). -/
inductive Instr where
  /-- 0x00: no operation (R106). -/
  | nop
  /-- 0x01: encrypt DATA in place (R126). -/
  | enc
  /-- 0x02: decrypt DATA in place (R128). -/
  | dec
  /-- 0x03: generate a random key into DATA (R150). -/
  | gen
  /-- 0x04: encode the password in PWD into KEY (R154). -/
  | fromPw
  /-- 0x05: copy DATA to KEY (R157). -/
  | movdk
  /-- 0x06: copy KEY to DATA (R159). -/
  | movkd
  /-- 0x10 + r: read out round key r (R130). r is the field CMD[3:0]. -/
  | rkey (r : BitVec 4)
deriving DecidableEq, Repr

end Sys2Proof
end

