-- ==== Sys2Proof/WellFormed.lean ====
section
/-! DEFINITION. Which terms of `Instr` are commands. -/

namespace Sys2Proof

/-- Legal round indices are 0..14; SUB = 0xF with OP = 0x1 is illegal (rule R81). No other command has an operand. -/
def Instr.wellFormed : Instr → Bool
  | .nop => true
  | .enc => true
  | .dec => true
  | .gen => true
  | .fromPw => true
  | .movdk => true
  | .movkd => true
  | .rkey r => r != 0xF

/-- The check as a proposition. -/
abbrev Instr.WellFormed (i : Instr) : Prop := i.wellFormed = true

end Sys2Proof
end

