-- ==== Sys2Proof/Decode.lean ====
section
/-! DEFINITION. The command byte: decoder and encoder (rules R80 to R84). -/

namespace Sys2Proof

/-- What a command byte decodes to: `Command | Illegal` (rule R83). -/
inductive Decoded where
  /-- One of the 22 legal bytes. -/
  | command (i : Instr)
  /-- One of the 234 illegal bytes (rule R84). -/
  | illegal
deriving DecidableEq, Repr

/-- OP, the major opcode: bits [7:4] (rule R80). -/
def opField (c : Byte) : BitVec 4 := c.extractLsb' 4 4

/-- SUB: bits [3:0] (rule R80); RKEY's round index when OP = 0x1 (rule R81). -/
def subField (c : Byte) : BitVec 4 := c.extractLsb' 0 4

/-- `Decode` (rule R83), total on every byte. -/
def decode (c : Byte) : Decoded :=
  if c = 0x00 then .command .nop
  else if c = 0x01 then .command .enc
  else if c = 0x02 then .command .dec
  else if c = 0x03 then .command .gen
  else if c = 0x04 then .command .fromPw
  else if c = 0x05 then .command .movdk
  else if c = 0x06 then .command .movkd
  else if opField c = 0x1 ∧ subField c ≠ 0xF then .command (.rkey (subField c))
  else .illegal

/-- The command byte of a command: the opcode map (rule R82). -/
def encode : Instr → Byte
  | .nop => 0x00
  | .enc => 0x01
  | .dec => 0x02
  | .gen => 0x03
  | .fromPw => 0x04
  | .movdk => 0x05
  | .movkd => 0x06
  | .rkey r => (0x1 : BitVec 4) ++ r

/-- The decoder on a word of the opcode table: every command is one byte (rule R80), so only 8 bits are read, and any
other length, or a number that does not fit in a byte, is no command. -/
def decodeTableWord (nbits w : Nat) : Option Instr :=
  if nbits = 8 ∧ w < 256 then
    match decode (BitVec.ofNat 8 w) with
    | .command i => some i
    | .illegal => none
  else none

end Sys2Proof
end

