-- ==== Sys2Proof/Machine/State.lean ====
section
/-! DEFINITION. The state of the machine as plain data (rules R20 to R35), its fault and refusal reasons, and its reset
value (rule R35). -/

namespace Sys2Proof.Machine

/-- The codes ERRCODE can hold (rules R28, R170). Codes 0x05 to 0xFF are never produced, so they have no name here. -/
inductive ErrCode where
  /-- 0x00 NONE: no error recorded since ERR was last cleared. -/
  | noError
  /-- 0x01 INVALID_PASSWORD: FROMPW at issue. -/
  | invalidPassword
  /-- 0x02 INVALID_RSIZE: ENC, DEC or MOVDK at issue. -/
  | invalidRsize
  /-- 0x03 ILLEGAL_COMMAND: a CMD write of an illegal byte while BUSY = 0. -/
  | illegalCommand
  /-- 0x04 BUSY_WRITE: a host write to 0x00..0x32 while BUSY = 1. -/
  | busyWrite
deriving DecidableEq, Repr

/-- One byte of one of the three register arrays: the places `fault Unwritten` names (rules R14, R34). -/
inductive Loc where
  | data (i : Fin 16)
  | key (i : Fin 16)
  | pwd (i : Fin 16)
deriving DecidableEq, Repr

/-- The three register arrays (rules R20, R21, R31). -/
inductive ArrayName where
  | data
  | key
  | pwd
deriving DecidableEq, Repr

/-- The registers of the window map (rule R51), reserved offsets 0x35..0x3F included. -/
inductive Reg where
  | data (i : Fin 16)
  | key (i : Fin 16)
  | pwd (i : Fin 16)
  | rsize
  | pwlen
  | cmd
  | status
  | errcode
  | reserved (i : Fin 11)
deriving DecidableEq, Repr

/-- A 16-byte register array with its WR entries (rule R34): `wr[i]` says whether a write has reached byte i since
reset. -/
structure RegArray where
  bytes : Block
  wr : Vector Bool 16
deriving DecidableEq, Repr

/-- One operation of a host program (rules R13, R85). Targets of branches are step indices (R23); labels are resolved by
the assembler of Machine/HostAsm.lean. -/
inductive HostOp where
  /-- `MemWrite(off, width, v)` (R13); v is the byte of a one-byte access. -/
  | wr (off : Offset) (width : Nat) (v : Byte)
  /-- `MemRead(off, width)`, the byte kept in host variable dst (R13, R85). -/
  | rd (off : Offset) (width : Nat) (dst : Nat)
  /-- Branch to step index `target` when bit `bit` of variable `var` is 1 (R85). -/
  | bnz (var : Nat) (bit : Fin 8) (target : Nat)
  /-- The end of the host program (R85). -/
  | halt
deriving DecidableEq, Repr

/-- Who moves: the host (R62), the core (R104), or the platform's reset input (R200). -/
inductive Turn where
  | host
  | core
  | reset
deriving DecidableEq, Repr

/-- Why a step stops with a fault. All are faults of the model: the core itself takes no traps (R175, R177). -/
inductive Fault where
  /-- `fault Unwritten(loc)` (R14, R34): raised by a host read of a byte no write has reached since reset (R54), by
  FROMPW's issue check (R102), and by the completion of ENC, DEC, RKEY, FROMPW, MOVDK and MOVKD (R104). Safe: the
  hardware goes on with some byte (R177). -/
  | unwritten (l : Loc)
  /-- Raised by a core turn when PEND holds an illegal byte: no reachable state (log, entry 9). Safe. -/
  | pendIllegal
  /-- Raised by the completion of ENC or DEC with RSIZE outside 1..16, of FROMPW with PWLEN outside 8..16, and of the
  ill-formed RKEY 15: the issue check rules each out (R102), so no reachable state (log, entry 9). Safe. -/
  | notIssuable
deriving DecidableEq, Repr

/-- Why a step has no meaning. -/
inductive Refusal where
  /-- An instruction that has no meaning yet; raised by no arm of `exec`. Safe. -/
  | notModelled (mnemonic : String)
  /-- `refuse(WideAccess)` (R53): raised by a host access of any width other than one byte. Safe. -/
  | wideAccess
deriving DecidableEq, Repr

/-- Everything the spec gives the machine, the host agent, and the model's own fields (INVENTORY.md, State). -/
structure State where
  /-- DATA and WR_DATA (R20, R34). -/
  data : RegArray
  /-- KEY and WR_KEY (R21, R34). -/
  key : RegArray
  /-- PWD and WR_PWD (R31, R34). -/
  pwd : RegArray
  /-- RSIZE[4:0] (R24). -/
  rsize : BitVec 5
  /-- PWLEN[4:0] (R25). -/
  pwlen : BitVec 5
  /-- STATUS.BUSY (R27). -/
  busy : Bool
  /-- STATUS.ERR (R27). -/
  err : Bool
  /-- ERRCODE (R28). -/
  errcode : ErrCode
  /-- PEND: none, or the byte of the command issued and not yet completed (R33). -/
  pend : Option Byte
  /-- The model's own: how many draws have been taken (log, entry 2). -/
  drawn : Nat
  /-- The host's program, in program order (R15, R85; log, entry 5). -/
  program : List HostOp
  /-- The step index of the host's next operation (R23). -/
  hpc : Nat
  /-- The host's variables, strictly rising; a variable with no entry is unset (R85; log, entry 6). -/
  vars : List Host.Cell
  /-- The model's own: the turns to come, the next one first (R62, R212; log, entry 4). -/
  sched : List Turn
  /-- The model's own: the host turns still to pass before the core's next turn, once `sched` is used up (R209, R212;
  log, entry 4). -/
  gap : Nat
  /-- The model's own: how many such gaps have been drawn (log, entry 4). -/
  gaps : Nat
deriving DecidableEq, Repr

/-- A register array after reset: every byte unwritten (R35). The byte values are a DESIGN CHOICE (log, entry 1); no
read reaches one before a write does. -/
def RegArray.reset : RegArray :=
  { bytes := Vector.replicate 16 0, wr := Vector.replicate 16 false }

/-- The machine right after reset (R35, R201), with no host program loaded and no turn fixed (log, entries 4, 5). -/
def State.reset : State :=
  { data := RegArray.reset
    key := RegArray.reset
    pwd := RegArray.reset
    rsize := 16
    pwlen := 0
    busy := false
    err := false
    errcode := .noError
    pend := none
    drawn := 0
    program := []
    hpc := 0
    vars := []
    sched := []
    gap := 0
    gaps := 0 }

end Sys2Proof.Machine
end

