-- ==== Sys2Proof/Machine/Flags.lean ====
section
/-! DEFINITION. STATUS and ERRCODE as bytes (rules R27, R28, R170): the core's only flags are BUSY and ERR (R30). -/

namespace Sys2Proof.Machine

/-- The value of an error code (rule R170). -/
def ErrCode.toByte : ErrCode → Byte
  | .noError => 0x00
  | .invalidPassword => 0x01
  | .invalidRsize => 0x02
  | .illegalCommand => 0x03
  | .busyWrite => 0x04

/-- STATUS as read: `zext_8(STATUS.ERR << 1 | STATUS.BUSY)` (rules R27, R54); bits 7:2 read 0. -/
def statusByte (err busy : Bool) : Byte :=
  (BitVec.ofBool err ++ BitVec.ofBool busy).zeroExtend 8

end Sys2Proof.Machine
end

