-- ==== Sys2Proof/Machine/Transform.lean ====
section
/-! DEFINITION. The pure functions of the block codec (rules R120 to R125) and of password encoding (R152, R153). -/

namespace Sys2Proof.Machine

/-- The round constant `RC_BASE ^ r` (rules R120, R121). -/
def roundConst (r : Nat) : Byte := Config.rcBase ^^^ BitVec.ofNat 8 r

/-- `RK(K, r)` (rule R120). -/
def roundKey (K : Block) (r : Nat) : Block := Vector.ofFn fun i => K[i] ^^^ roundConst r

/-- Exchange of bytes 2j and 2j+1: the pair (i-1, i) for the odd i = 2j+1 (rule R122; C1). -/
def swapPair (B : Block) (j : Fin 8) : Block := B.swap (2 * j.val) (2 * j.val + 1) (by omega) (by omega)

/-- `Swap(B, n)` (rule R122): for i = 1, 3, 5, ... while i < n. -/
def swapPairs (B : Block) (n : Nat) : Block :=
  (List.finRange 8).foldl (fun B j => if 2 * j.val + 1 < n then swapPair B j else B) B

/-- `KeyMix(B, K, r, n)` (rule R123). -/
def keyMix (B K : Block) (r n : Nat) : Block :=
  Vector.ofFn fun i => if i.val < n then B[i] ^^^ (roundKey K r)[i] else B[i]

/-- Round r of Encrypt: swap, then key mix (rule R124). -/
def encRound (K : Block) (n : Nat) (B : Block) (r : Nat) : Block := keyMix (swapPairs B n) K r n

/-- Round r of Decrypt: undo the key mix, then undo the swap (rule R125). -/
def decRound (K : Block) (n : Nat) (B : Block) (r : Nat) : Block := swapPairs (keyMix B K r n) n

/-- `Encrypt(B, K, n)`: rounds 0, 1, ..., 14 (rule R124). -/
def encrypt (B K : Block) (n : Nat) : Block := (List.range Config.rounds).foldl (encRound K n) B

/-- `Decrypt(B, K, n)`: rounds 14, 13, ..., 0 (rule R125). -/
def decrypt (B K : Block) (n : Nat) : Block := (List.range Config.rounds).reverse.foldl (decRound K n) B

/-- A password character: PW_CHAR_MIN..PW_CHAR_MAX (rules R8, R153). -/
def passwordChar (b : Byte) : Bool := decide (Config.pwCharMin ≤ b ∧ b ≤ Config.pwCharMax)

/-- Every character of `s[0..L)` is a password character (rule R153). -/
def passwordChars (s : Block) (L : Nat) : Bool :=
  (List.finRange 16).all fun k => decide (L ≤ k.val) || passwordChar s[k]

/-- A legal password length (rule R153). -/
abbrev PasswordLength (L : Nat) : Prop := Config.pwMinLen ≤ L ∧ L ≤ Config.pwMaxLen

/-- The first loop of `Encode` (rule R152): `out[k] <- s[k]` for k < L. The other bytes are zero until the second loop
writes them. -/
def encodeCopy (s : Block) (L : Nat) : Block := Vector.ofFn fun k => if k.val < L then s[k] else 0

/-- One turn of the second loop of `Encode` (rule R152): `out[L + k] <- out[k]`, while L + k is in the block. -/
def encodeFill (L : Nat) (out : Block) (k : Fin 16) : Block :=
  if h : L + k.val < 16 then out.set (L + k.val) out[k] h else out

/-- `Encode(s, L)` (rule R152), in increasing k, reading bytes already written. -/
def encodePassword (s : Block) (L : Nat) : Block := (List.finRange 16).foldl (encodeFill L) (encodeCopy s L)

end Sys2Proof.Machine
end

