-- ==== Sys2Proof/Machine/Operands.lean ====
section
/-! DEFINITION. The window map (rule R51), the reading and writing of register bytes with their WR entries (rule R34),
and the operand bytes each command reads. -/

namespace Sys2Proof.Machine

/-- An outcome that carries something other than a state. -/
abbrev Result (α : Type) := Host.Outcome α Fault Refusal

/-- Go on with the value of a result, or stop as it stopped. -/
def andThen {α β : Type} (x : Result α) (f : α → Result β) : Result β :=
  match x with
  | .next a => f a
  | .fault r => .fault r
  | .refused r => .refused r

/-- The window offset of a register (rule R51). -/
def Reg.offset : Reg → Offset
  | .data i => BitVec.ofNat 6 i.val
  | .key i => BitVec.ofNat 6 (0x10 + i.val)
  | .pwd i => BitVec.ofNat 6 (0x20 + i.val)
  | .rsize => 0x30
  | .pwlen => 0x31
  | .cmd => 0x32
  | .status => 0x33
  | .errcode => 0x34
  | .reserved i => BitVec.ofNat 6 (0x35 + i.val)

/-- The register at a window offset (rule R51), total on the window. -/
def Reg.ofOffset (off : Offset) : Reg :=
  if h : off.toNat < 0x10 then .data ⟨off.toNat, h⟩
  else if h : off.toNat < 0x20 then .key ⟨off.toNat - 0x10, by omega⟩
  else if h : off.toNat < 0x30 then .pwd ⟨off.toNat - 0x20, by omega⟩
  else if off.toNat = 0x30 then .rsize
  else if off.toNat = 0x31 then .pwlen
  else if off.toNat = 0x32 then .cmd
  else if off.toNat = 0x33 then .status
  else if h : off.toNat = 0x34 then .errcode
  else .reserved ⟨off.toNat - 0x35, by have := off.isLt; omega⟩

/-- The bus address of a window offset: REG_BASE + off (rule R50). It does not wrap (log, entry 14, DESIGN
CHOICE): wrapping at the top of the bus is the platform's. -/
def busAddress (off : Offset) : Nat := Config.regBase + off.toNat

/-- The window offset a bus address selects, if it lies in the window (rule R50). -/
def windowOffset (a : Nat) : Option Offset :=
  if Config.regBase ≤ a ∧ a < Config.regBase + 64 then some (BitVec.ofNat 6 (a - Config.regBase)) else none

/-- A write of one byte of an array: the byte, and its WR entry (rules R34, R55). -/
def RegArray.write (a : RegArray) (i : Fin 16) (v : Byte) : RegArray :=
  { bytes := a.bytes.set i v, wr := a.wr.set i true }

/-- A write of all 16 bytes of an array: all WR entries become true (rules R130, R150, R154, R157, R159). -/
def RegArray.full (B : Block) : RegArray := { bytes := B, wr := Vector.replicate 16 true }

/-- The WR entry of a byte (rule R34). -/
def State.written (s : State) : Loc → Bool
  | .data i => s.data.wr[i]
  | .key i => s.key.wr[i]
  | .pwd i => s.pwd.wr[i]

/-- Reading the bytes `ls`, in this order: the first one that is unwritten faults (rule R34); otherwise go on as `k`. -/
def require {α : Type} (ls : List Loc) (s : State) (k : Result α) : Result α :=
  match ls.find? fun l => !s.written l with
  | some l => .fault (.unwritten l)
  | none => k

/-- The indices of the bytes [0..n) of an array. -/
def indicesBelow (n : Nat) : List (Fin 16) := (List.finRange 16).filter fun i => decide (i.val < n)

/-- The operand bytes of ENC and DEC (rules R126, R128): for i in 0..n-1, DATA[i] then KEY[i]. -/
def codecLocs (n : Nat) : List Loc := (indicesBelow n).flatMap fun i => [.data i, .key i]

/-- All 16 bytes of DATA (rule R157). -/
def dataLocs : List Loc := (indicesBelow 16).map .data

/-- All 16 bytes of KEY (rules R130, R159). -/
def keyLocs : List Loc := (indicesBelow 16).map .key

/-- PWD[0..L) (rules R102, R154). -/
def pwdLocs (L : Nat) : List Loc := (indicesBelow L).map .pwd

/-- The real sizes ENC and DEC accept (rules R8, R102). -/
abbrev RealSize (n : Nat) : Prop := Config.rsizeMin ≤ n ∧ n ≤ Config.rsizeMax

/-- The issue check of NOP, GEN, MOVKD and RKEY: none (rule R102). -/
def checkNone : Result ErrCode := .next .noError

/-- The issue check of ENC and DEC: 1 <= RSIZE <= 16 (rule R102). -/
def checkRealSize (s : State) : Result ErrCode :=
  if RealSize s.rsize.toNat then .next .noError else .next .invalidRsize

/-- The issue check of MOVDK: RSIZE == 16 (rule R102). -/
def checkFullBlock (s : State) : Result ErrCode :=
  if s.rsize.toNat = 16 then .next .noError else .next .invalidRsize

/-- The issue check of FROMPW: `ValidPassword(PWD, PWLEN)` (rules R102, R153). The length is tested first, and PWD is
read only when it passes; an unwritten byte among those read faults. -/
def checkPassword (s : State) : Result ErrCode :=
  if PasswordLength s.pwlen.toNat then
    require (pwdLocs s.pwlen.toNat) s
      (if passwordChars s.pwd.bytes s.pwlen.toNat then .next .noError else .next .invalidPassword)
  else .next .invalidPassword

/-- `IssueCheck(cmd)` (rules R100, R102): `noError` is NONE. -/
def issueCheck (i : Instr) (s : State) : Result ErrCode :=
  match i with
  | .nop => checkNone
  | .enc => checkRealSize s
  | .dec => checkRealSize s
  | .gen => checkNone
  | .fromPw => checkPassword s
  | .movdk => checkFullBlock s
  | .movkd => checkNone
  | .rkey _ => checkNone

end Sys2Proof.Machine
end

