-- ==== Sys2Proof/Machine/Ops.lean ====
section
/-! DEFINITION. The operations the meanings share: recording and clearing an error, issue and completion of a command,
writing DATA and KEY, the bus read and write of the window, and the reset event. -/

namespace Sys2Proof.Machine

/-- `raise Error(code)` (rule R172): the first error since the last clear keeps its code. This is all the core has for
an exception: it takes no traps (R175). -/
def raiseError (code : ErrCode) (s : State) : State :=
  { s with errcode := if s.err then s.errcode else code, err := true }

/-- The W1C clear of STATUS.ERR, with ERRCODE (rule R174): the only acknowledgement of an error (R176). -/
def clearError (s : State) : State := { s with err := false, errcode := .noError }

/-- Acceptance of a command: `PEND <- c; STATUS.BUSY <- 1` (rule R103). -/
def accept (c : Byte) (s : State) : State := { s with pend := some c, busy := true }

/-- The end of a completion: `PEND <- none; STATUS.BUSY <- 0` (rule R104). -/
def retire (s : State) : State := { s with pend := none, busy := false }

/-- ENC and DEC write the bytes of DATA they own in place: no WR entry and no size changes (rules R126, R128). -/
def setDataBytes (B : Block) (s : State) : State := { s with data := { s.data with bytes := B } }

/-- A write of all of DATA, with RSIZE <- 16 (rules R130, R150, R159). -/
def loadData (B : Block) (s : State) : State := { s with data := RegArray.full B, rsize := 16 }

/-- A write of all of KEY (rules R154, R157). -/
def loadKey (B : Block) (s : State) : State := { s with key := RegArray.full B }

/-- The draws of GEN, one per byte, independent of each other (rule R150). -/
def drawBlock (n : Nat) : Block := Vector.ofFn fun i => Config.draw (n + i.val)

/-- Taking n draws advances the model's own counter. -/
def takeDraws (n : Nat) (s : State) : State := { s with drawn := s.drawn + n }

/-- `Issue(c)` (rule R100): decode, then the issue check, then acceptance. -/
def issue (c : Byte) (s : State) : Result State :=
  match decode c with
  | .illegal => .next (raiseError .illegalCommand s)
  | .command i =>
    andThen (issueCheck i s) fun e =>
      if e = .noError then .next (accept c s) else .next (raiseError e s)

/-- The completion of ENC and DEC over the transform `f` (rules R126, R128). -/
def completeCodec (f : Block → Block → Nat → Block) (s : State) : Result State :=
  if RealSize s.rsize.toNat then
    require (codecLocs s.rsize.toNat) s
      (.next (retire (setDataBytes (f s.data.bytes s.key.bytes s.rsize.toNat) s)))
  else .fault .notIssuable

/-- A host read of a register while BUSY = 0 (rule R54). It changes no state. -/
def readReg (r : Reg) (s : State) : Result Byte :=
  match r with
  | .data i => require [.data i] s (.next s.data.bytes[i])
  | .key i => require [.key i] s (.next s.key.bytes[i])
  | .pwd i => require [.pwd i] s (.next s.pwd.bytes[i])
  | .rsize => .next (s.rsize.zeroExtend 8)
  | .pwlen => .next (s.pwlen.zeroExtend 8)
  | .cmd => .next 0x00
  | .status => .next (statusByte s.err s.busy)
  | .errcode => .next s.errcode.toByte
  | .reserved _ => .next 0x00

/-- A host write of a register that is not dropped (rule R55). -/
def writeReg (r : Reg) (v : Byte) (s : State) : Result State :=
  match r with
  | .data i => .next { s with data := s.data.write i v }
  | .key i => .next { s with key := s.key.write i v }
  | .pwd i => .next { s with pwd := s.pwd.write i v }
  | .rsize => .next { s with rsize := v.setWidth 5 }
  | .pwlen => .next { s with pwlen := v.setWidth 5 }
  | .cmd => issue v s
  | .status => if v.getLsbD 1 then .next (clearError s) else .next s
  | .errcode => .next s
  | .reserved _ => .next s

/-- `MemRead(off, width)` (rules R53, R54, R57; log, entry 16, DEDUCED): the byte read, and the state after. Only a read of 0x00..0x31 while
BUSY = 1 takes a draw. -/
def memRead (off : Offset) (width : Nat) (s : State) : Result (Byte × State) :=
  if width ≠ 1 then .refused .wideAccess
  else if s.busy = true ∧ off.toNat ≤ 0x31 then .next (Config.draw s.drawn, takeDraws 1 s)
  else andThen (readReg (Reg.ofOffset off) s) fun b => .next (b, s)

/-- `MemWrite(off, width, v)` (rules R53, R55, R57): a write to 0x00..0x32 while BUSY = 1 is dropped with BUSY_WRITE. -/
def memWrite (off : Offset) (width : Nat) (v : Byte) (s : State) : Result State :=
  if width ≠ 1 then .refused .wideAccess
  else if s.busy = true ∧ off.toNat ≤ 0x32 then .next (raiseError .busyWrite s)
  else writeReg (Reg.ofOffset off) v s

/-- The reset event (rules R35, R200): every piece of the core's state takes its reset value. The host's program and
variables, the turns to come and the count of draws taken are not the core's, and stay (log, entries 2 and 18, DESIGN
CHOICE). -/
def coreReset (s : State) : State :=
  { s with
    data := RegArray.reset
    key := RegArray.reset
    pwd := RegArray.reset
    rsize := 16
    pwlen := 0
    busy := false
    err := false
    errcode := .noError
    pend := none }

end Sys2Proof.Machine
end

