-- ==== Sys2Proof/Machine/Codec.lean ====
section
/-! DEFINITION. The meanings of ENC, DEC and RKEY (41_block_codec.md). A meaning is the completion of the command
(rule R104). -/

namespace Sys2Proof.Machine

/-- ENC (rule R126): DATA <- Encrypt(DATA, KEY, RSIZE). -/
def execEnc (s : State) : Result State := completeCodec encrypt s

/-- DEC (rule R128): DATA <- Decrypt(DATA, KEY, RSIZE). -/
def execDec (s : State) : Result State := completeCodec decrypt s

/-- RKEY r (rule R130): DATA <- RK(KEY, r), RSIZE <- 16. No round 15 exists (R81, R84). -/
def execRkey (r : BitVec 4) (s : State) : Result State :=
  if r.toNat < Config.rounds then require keyLocs s (.next (retire (loadData (roundKey s.key.bytes r.toNat) s)))
  else .fault .notIssuable

end Sys2Proof.Machine
end

