-- ==== Sys2Proof/Machine/Control.lean ====
section
/-! DEFINITION. The meaning of NOP (40_command_execution.md). A meaning is the completion of the command (rule R104). -/

namespace Sys2Proof.Machine

/-- NOP (rule R106): nothing but the end of the completion. -/
def execNop (s : State) : Result State := .next (retire s)

end Sys2Proof.Machine
end

