-- ==== Sys2Proof/Machine/KeyMaterial.lean ====
section
/-! DEFINITION. The meanings of GEN, FROMPW, MOVDK and MOVKD (42_key_material.md). A meaning is the completion of the
command (rule R104). -/

namespace Sys2Proof.Machine

/-- GEN (rule R150): DATA <- 16 draws, RSIZE <- 16. It never fails. -/
def execGen (s : State) : Result State := .next (retire (loadData (drawBlock s.drawn) (takeDraws 16 s)))

/-- FROMPW (rule R154): KEY <- Encode(PWD[0..PWLEN), PWLEN). -/
def execFromPw (s : State) : Result State :=
  if PasswordLength s.pwlen.toNat then
    require (pwdLocs s.pwlen.toNat) s (.next (retire (loadKey (encodePassword s.pwd.bytes s.pwlen.toNat) s)))
  else .fault .notIssuable

/-- MOVDK (rule R157): KEY <- DATA. -/
def execMovdk (s : State) : Result State := require dataLocs s (.next (retire (loadKey s.data.bytes s)))

/-- MOVKD (rule R159): DATA <- KEY, RSIZE <- 16. -/
def execMovkd (s : State) : Result State := require keyLocs s (.next (retire (loadData s.key.bytes s)))

end Sys2Proof.Machine
end

