-- ==== Sys2Proof/Machine/Dispatch.lean ====
section
/-! DEFINITION. From a command to its meaning: `Apply` and the end of the completion (rule R104). -/

namespace Sys2Proof.Machine

def exec (i : Instr) (s : State) : Host.Outcome State Fault Refusal :=
  match i with
  | .nop => Sys2Proof.Machine.execNop s
  | .enc => Sys2Proof.Machine.execEnc s
  | .dec => Sys2Proof.Machine.execDec s
  | .gen => Sys2Proof.Machine.execGen s
  | .fromPw => Sys2Proof.Machine.execFromPw s
  | .movdk => Sys2Proof.Machine.execMovdk s
  | .movkd => Sys2Proof.Machine.execMovkd s
  | .rkey r => Sys2Proof.Machine.execRkey r s

end Sys2Proof.Machine
end

