-- ==== Sys2Proof/Machine/HostAgent.lean ====
section
/-! DEFINITION. The host agent (rules R15, R62, R85): its variables, and one operation of its program. -/

namespace Sys2Proof.Machine

/-- The variables in canonical form: strictly rising. A variable with no entry is unset. -/
def Vars.wf : List Host.Cell → Bool
  | [] => true
  | [_] => true
  | (x, _) :: (y, b) :: rest => decide (x < y) && Vars.wf ((y, b) :: rest)

/-- The byte of a variable: the one kept in it, or a free value if it is unset (log, entry 6). -/
def Vars.get (x : Nat) : List Host.Cell → Byte
  | [] => Config.unsetVar x
  | (y, b) :: rest => if x = y then b else Vars.get x rest

/-- Keeping a byte in a variable (rule R85), in canonical form. -/
def Vars.set (x : Nat) (v : Byte) : List Host.Cell → List Host.Cell
  | [] => [(x, v)]
  | (y, b) :: rest =>
    if x < y then (x, v) :: (y, b) :: rest
    else if x = y then (x, v) :: rest
    else (y, b) :: Vars.set x v rest

/-- The host goes on to the next operation in program order. -/
def advanceHost (s : State) : State := { s with hpc := s.hpc + 1 }

/-- The host goes on at a step index. -/
def jumpHost (target : Nat) (s : State) : State := { s with hpc := target }

/-- The host keeps a byte in a variable. -/
def setVar (x : Nat) (v : Byte) (s : State) : State := { s with vars := Vars.set x v s.vars }

/-- One host operation (rules R13, R85). -/
def hostOp (o : HostOp) (s : State) : Result State :=
  match o with
  | .wr off width v => andThen (memWrite off width v s) fun t => .next (advanceHost t)
  | .rd off width dst => andThen (memRead off width s) fun bt => .next (advanceHost (setVar dst bt.1 bt.2))
  | .bnz x bit target =>
    if (Vars.get x s.vars).getLsbD bit.val then .next (jumpHost target s) else .next (advanceHost s)
  | .halt => .next s

/-- The host's turn: its next operation. Past its program the host makes no access (log, entry 5). -/
def hostTurn (s : State) : Result State :=
  match s.program[s.hpc]? with
  | some o => hostOp o s
  | none => .next s

end Sys2Proof.Machine
end

