-- ==== Sys2Proof/Machine/Turns.lean ====
section
/-! DEFINITION. Whose turn it is, and the core's turn (rules R62, R104, R209, R212). -/

namespace Sys2Proof.Machine

/-- Whose turn is next: the head of the schedule. When the schedule is used up, the host's turns go on, and a pending
command completes when the gap before the core's next turn has passed: after a free number of host turns (R212), but a
finite one (R209). Log, entry 4 (DESIGN CHOICE). -/
def nextTurn (s : State) : Turn :=
  match s.sched with
  | t :: _ => t
  | [] => if s.pend = none then .host else if s.gap = 0 then .core else .host

/-- The gap and the count of gaps drawn, after one turn: only a turn past the schedule changes them. When the gap has
passed, the next one is a free value, chosen by the count alone (R211; log, entries 4 and 19, DESIGN CHOICE). -/
def passGap (s : State) : Nat × Nat :=
  match s.sched with
  | _ :: _ => (s.gap, s.gaps)
  | [] => if s.gap = 0 then (Config.coreGap s.gaps, s.gaps + 1) else (s.gap - 1, s.gaps)

/-- The turn is used up. -/
def dropTurn (s : State) : State :=
  { s with sched := s.sched.tail, gap := (passGap s).1, gaps := (passGap s).2 }

/-- The core's turn: `Complete()` of the pending command (rule R104). Completion is enabled only while PEND is not none
(R212), so with nothing pending the turn passes with no effect. -/
def coreTurn (s : State) : Result State :=
  match s.pend with
  | none => .next s
  | some c =>
    match decode c with
    | .command i => exec i s
    | .illegal => .fault .pendIllegal

/-- A command byte stands in PEND as if just accepted, and the next turn is the core's. A command is one byte (R80), so
the first 8 bits of w are laid out, the bits above nbits zero. -/
def placeCommand (s : State) (nbits w : Nat) : State :=
  { s with pend := some (BitVec.ofNat 8 (w % 2 ^ nbits)), busy := true, sched := .core :: s.sched }

end Sys2Proof.Machine
end

