-- ==== Sys2Proof/Machine/Step.lean ====
section
/-! DEFINITION. One step of the machine: the turn of the host, the core or the reset input. -/

namespace Sys2Proof.Machine

/-- One step: the next turn is used up and given to its agent (rules R62, R104, R200, R212; log, entry 4). -/
def step (s : State) : Host.Outcome State Fault Refusal :=
  match nextTurn s with
  | .host => hostTurn (dropTurn s)
  | .core => coreTurn (dropTurn s)
  | .reset => .next (coreReset (dropTurn s))

/-- The command byte pending, with the next turn the core's: the very next step completes it (log, entry 13). -/
def State.withFetchWord (s : State) (nbits w : Nat) : State := placeCommand s nbits w

end Sys2Proof.Machine
end

