-- ==== Sys2Proof/Machine/HostAsm.lean ====
section
/-! DEFINITION. Host program notation: assembly lines, pseudo-instructions and their expansion (rules R85, R86), and the
bus transaction word (rule R87). -/

namespace Sys2Proof.Machine

/-- A byte of an array register (rule R85). -/
def ArrayName.reg : ArrayName → Fin 16 → Reg
  | .data, i => .data i
  | .key, i => .key i
  | .pwd, i => .pwd i

/-- A line of a host program (rules R85, R86). Labels and variables are numbers here, and `t` is the variable a poll
reads into (log, entry 15, DESIGN CHOICE). -/
inductive AsmLine where
  | label (l : Nat)
  | wr (r : Reg) (v : Byte)
  | rd (r : Reg) (x : Nat)
  | cmd (i : Instr)
  | bnz (x : Nat) (bit : Fin 8) (l : Nat)
  | halt
  | poll (t : Nat)
  | run (i : Instr) (t : Nat)
  | wrblk (a : ArrayName) (bs : List Byte)
  | rdblk (a : ArrayName) (n : Nat) (x : Nat)
  | clrerr
deriving DecidableEq, Repr

/-- `wr <reg>, <byte>` (rule R85): `MemWrite(off(reg), 1, byte)`. -/
def wrOp (r : Reg) (v : Byte) : HostOp := .wr r.offset 1 v

/-- `rd <reg> -> <var>` (rule R85): `MemRead(off(reg), 1)`. -/
def rdOp (r : Reg) (x : Nat) : HostOp := .rd r.offset 1 x

/-- `cmd <MNEMONIC>` (rule R85): `wr CMD, <command byte>`. RKEY 15 is no command, and R82 gives it no
byte: a line with it writes the byte its fields make, the illegal 0x1F (log, entry 15, DESIGN CHOICE). -/
def cmdOp (i : Instr) : HostOp := wrOp .cmd (encode i)

/-- `poll` at step index p (rule R86): read STATUS, and again while bit 0 is 1. -/
def pollOps (p t : Nat) : List HostOp := [rdOp .status t, .bnz t 0 p]

/-- `wrblk` (rule R86): the first bytes of the array, in ascending order. -/
def wrblkOps (a : ArrayName) (bs : List Byte) : List HostOp :=
  ((List.finRange 16).zip bs).map fun ib => wrOp (a.reg ib.1) ib.2

/-- `rdblk` (rule R86): byte i into variable x + i. R86 gives it for DATA only; reading KEY or PWD the same way is the
model's choice (log, entry 15, DESIGN CHOICE). -/
def rdblkOps (a : ArrayName) (n x : Nat) : List HostOp :=
  (indicesBelow n).map fun i => rdOp (a.reg i) (x + i.val)

/-- How many host operations a line expands to. -/
def AsmLine.size : AsmLine → Nat
  | .label _ => 0
  | .wr _ _ => 1
  | .rd _ _ => 1
  | .cmd _ => 1
  | .bnz _ _ _ => 1
  | .halt => 1
  | .poll _ => 2
  | .run _ _ => 3
  | .wrblk _ bs => bs.length
  | .rdblk _ n _ => n
  | .clrerr => 1

/-- The step index of a label: of the operation after it. -/
def labelIndex (l : Nat) : Nat → List AsmLine → Option Nat
  | _, [] => none
  | p, .label k :: rest => if k = l then some p else labelIndex l p rest
  | p, line :: rest => labelIndex l (p + line.size) rest

/-- The expansion of one line at step index p; none for a branch to a label that no line declares, or a block of more
than 16 bytes. -/
def AsmLine.expand (all : List AsmLine) (p : Nat) : AsmLine → Option (List HostOp)
  | .label _ => some []
  | .wr r v => some [wrOp r v]
  | .rd r x => some [rdOp r x]
  | .cmd i => some [cmdOp i]
  | .bnz x bit l => (labelIndex l 0 all).map fun q => [.bnz x bit q]
  | .halt => some [.halt]
  | .poll t => some (pollOps p t)
  | .run i t => some (cmdOp i :: pollOps (p + 1) t)
  | .wrblk a bs => if bs.length ≤ 16 then some (wrblkOps a bs) else none
  | .rdblk a n x => if n ≤ 16 then some (rdblkOps a n x) else none
  | .clrerr => some [wrOp .status 0x02]

/-- The operations of the lines from step index p on. -/
def assembleFrom (all : List AsmLine) : Nat → List AsmLine → Option (List HostOp)
  | _, [] => some []
  | p, line :: rest =>
    match line.expand all p, assembleFrom all (p + line.size) rest with
    | some ops, some more => some (ops ++ more)
    | _, _ => none

/-- A host program from its lines (rules R85, R86). -/
def assemble (lines : List AsmLine) : Option (List HostOp) := assembleFrom lines 0 lines

/-- A bus transaction (rule R87). -/
inductive Access where
  | read (off : Offset)
  | write (off : Offset) (v : Byte)
deriving DecidableEq, Repr

/-- The 16-bit transaction word (rule R87): W at bit 15, bit 14 zero, the offset at 13:8, the data byte at 7:0. -/
def Access.word : Access → BitVec 16
  | .read off => (0x0 : BitVec 2) ++ off ++ (0x00 : Byte)
  | .write off v => (0x2 : BitVec 2) ++ off ++ v

/-- The transaction a word stands for, if it is one (rule R87). -/
def Access.ofWord (w : BitVec 16) : Option Access :=
  if w.extractLsb' 14 2 = 0x2 then some (.write (w.extractLsb' 8 6) (w.extractLsb' 0 8))
  else if w.extractLsb' 14 2 = 0x0 ∧ w.extractLsb' 0 8 = 0x00 then some (.read (w.extractLsb' 8 6))
  else none

/-- The transaction of a host operation; branches and the end have no word (rule R87), nor has a wide access (R53). -/
def HostOp.access : HostOp → Option Access
  | .wr off width v => if width = 1 then some (.write off v) else none
  | .rd off width _ => if width = 1 then some (.read off) else none
  | .bnz _ _ _ => none
  | .halt => none

end Sys2Proof.Machine
end

