-- ==== Sys2Proof/Safety.lean ====
section
/-! DEFINITION. The terms claims use: the invariant of the machine, when a command's operands are ready, and when a run is
safe. -/

namespace Sys2Proof.Machine

/-- PEND, where it is not none, holds the byte of a legal command whose issue check passes on the operand registers as
they stand (rules R33, R100, R103, R104: the operands cannot have changed since issue). -/
def State.PendOk (s : State) : Prop :=
  ∀ c, s.pend = some c → ∃ i, decode c = .command i ∧ issueCheck i s = .next .noError

/-- The invariant of the machine: STATUS.BUSY = 1 exactly when PEND is not none (R33); ERRCODE is 0x00 exactly when
STATUS.ERR = 0 (R28); PEND holds an issuable command; the host's variables are in canonical form. -/
structure State.Inv (s : State) : Prop where
  busy_iff_pend : s.busy = s.pend.isSome
  err_iff_code : s.err = true ↔ s.errcode ≠ .noError
  pend_ok : s.PendOk
  vars_wf : Vars.wf s.vars = true

/-- The operand bytes a command reads at completion (rules R81, R203). -/
def operandLocs (i : Instr) (s : State) : List Loc :=
  match i with
  | .nop => []
  | .enc => codecLocs s.rsize.toNat
  | .dec => codecLocs s.rsize.toNat
  | .gen => []
  | .fromPw => pwdLocs s.pwlen.toNat
  | .movdk => dataLocs
  | .movkd => keyLocs
  | .rkey _ => keyLocs

/-- Every operand byte the command reads has been written since reset (rule R203). -/
def OperandsWritten (i : Instr) (s : State) : Prop := ∀ l ∈ operandLocs i s, s.written l = true

/-- The value requirements on RSIZE, PWLEN and r under which a completion is defined (rules R81, R126, R128, R154). -/
def OperandsDefined (i : Instr) (s : State) : Prop :=
  match i with
  | .nop => True
  | .enc => RealSize s.rsize.toNat
  | .dec => RealSize s.rsize.toNat
  | .gen => True
  | .fromPw => PasswordLength s.pwlen.toNat
  | .movdk => True
  | .movkd => True
  | .rkey r => r.toNat < Config.rounds

/-- A fault that no reachable state raises (log, entry 9). -/
def Fault.internal : Fault → Bool
  | .unwritten _ => false
  | .pendIllegal => true
  | .notIssuable => true

/-- The permutation p_n of rule R122. -/
def pairIndex (n i : Nat) : Nat :=
  if i % 2 = 0 ∧ i + 1 < n then i + 1
  else if i % 2 = 1 ∧ i < n then i - 1
  else i

/-- Byte i of a block at a natural index, for statements that index through `pairIndex`. -/
def byteAt (B : Block) (i : Nat) : Byte := if h : i < 16 then B[i] else 0

/-- Two arrays agree on every written byte, and on which bytes are written. -/
def RegArray.SameWritten (a b : RegArray) : Prop :=
  a.wr = b.wr ∧ ∀ i : Fin 16, a.wr[i] = true → a.bytes[i] = b.bytes[i]

/-- Two states that differ at most in the values of unwritten bytes (rule R34). -/
def State.SameWritten (s t : State) : Prop :=
  s.data.SameWritten t.data ∧ s.key.SameWritten t.key ∧ s.pwd.SameWritten t.pwd ∧
    { s with data := t.data, key := t.key, pwd := t.pwd } = t

/-- Two outcomes of the same kind: the same stop, or next states that differ at most in unwritten bytes. -/
def OutcomeSameWritten : Result State → Result State → Prop
  | .next s, .next t => s.SameWritten t
  | .fault a, .fault b => a = b
  | .refused a, .refused b => a = b
  | _, _ => False

/-- `k` steps from a state, stopping at the first fault or refusal. -/
def runSteps : Nat → State → Result State
  | 0, s => .next s
  | k + 1, s => andThen (step s) (runSteps k)

/-- A run of `k` steps is safe: it ends in a next state, or at a stop the spec itself names (R14), not at one of the two
internal faults. -/
def SafeRun (k : Nat) (s : State) : Prop := ∀ f, runSteps k s = .fault f → f.internal = false

/-- The next turn is the host's, and o is the host's next operation. -/
def hostNext (o : HostOp) (s : State) : Prop := nextTurn s = .host ∧ s.program[s.hpc]? = some o

end Sys2Proof.Machine
end

