-- ==== Sys2Proof/Certificates/Slice0/Obligations.lean ====
section
/-! DEFINITION. The statements about the machine, for the provers. -/

open Sys2Proof Sys2Proof.Machine

/-! Encoding (30_encoding.md). -/

/-- Every well-formed command decodes from its own byte, and a byte that decodes to a command is that command's byte:
no bit of an encoding is dropped, and no two bytes share a command. -/
def Obligations.DecodeEncodeRoundTrip : Prop :=
  (∀ i : Instr, i.WellFormed → decode (encode i) = .command i) ∧
    ∀ (c : Byte) (i : Instr), decode c = .command i → i.WellFormed ∧ encode i = c

/-- R84, R101: which bytes are illegal and which legal, how many, and that issuing an illegal one records
ILLEGAL_COMMAND (as R172 records an error) and changes nothing else. -/
def Obligations.IllegalBytesOnlyRecordTheError : Prop :=
  (∀ c : Byte, decode c = .illegal ↔ (0x07 ≤ c ∧ c ≤ 0x0F) ∨ c = 0x1F ∨ 0x20 ≤ c) ∧
    (∀ c : Byte, (∃ i, decode c = .command i) ↔ c ≤ 0x06 ∨ (0x10 ≤ c ∧ c ≤ 0x1E)) ∧
    ((List.range 256).filter fun n => decode (BitVec.ofNat 8 n) = .illegal).length = 234 ∧
    ∀ (c : Byte) (s : State), s.busy = false → decode c = .illegal →
      memWrite 0x32 1 c s =
        .next { s with errcode := if s.err = true then s.errcode else .illegalCommand, err := true }

/-- Words written out from the opcode map decode to the commands they stand for. -/
def Obligations.SpecBytesDecode : Prop :=
  decode 0b00000000 = .command .nop ∧ decode 0b00000001 = .command .enc ∧ decode 0b00000010 = .command .dec ∧
    decode 0b00000011 = .command .gen ∧ decode 0b00000100 = .command .fromPw ∧
    decode 0b00000101 = .command .movdk ∧ decode 0b00000110 = .command .movkd ∧
    decode 0b00010000 = .command (.rkey 0) ∧ decode 0b00010111 = .command (.rkey 7) ∧
    decode 0b00011110 = .command (.rkey 14) ∧ decode 0b00011111 = .illegal

/-- R87: the fields of a transaction word, that words and transactions stand for each other, and the two examples. -/
def Obligations.TransactionWordsRoundTrip : Prop :=
  (∀ a : Access, Access.ofWord a.word = some a) ∧
    (∀ (w : BitVec 16) (a : Access), Access.ofWord w = some a → a.word = w) ∧
    (∀ (off : Offset) (v : Byte),
      (Access.write off v).word.toNat = 0x8000 + 0x100 * off.toNat + v.toNat ∧
        (Access.read off).word.toNat = 0x100 * off.toNat) ∧
    (cmdOp .enc).access.map Access.word = some 0xB201 ∧
    (rdOp .status 0).access.map Access.word = some 0x3300 ∧
    ∀ (x : Nat) (bit : Fin 8) (target : Nat), (HostOp.bnz x bit target).access = none

/-- What each pseudo-operation expands to (R86). A poll branches back to its own STATUS read, wherever it stands in a
program: after `ops`, that is at the step index `ops.length`. That a poll names its variable t, and that rdblk fills the
consecutive variables x + k, is the model's choice (log, entry 15), and so is the byte that `run` writes for RKEY 15. -/
def Obligations.PseudoOperationsExpand : Prop :=
  (∀ (before : List AsmLine) (ops : List HostOp) (t : Nat), assemble before = some ops →
      assemble (before ++ [.poll t]) = some (ops ++ [.rd 0x33 1 t, .bnz t 0 ops.length])) ∧
    (∀ (before : List AsmLine) (ops : List HostOp) (i : Instr) (t : Nat), assemble before = some ops →
      assemble (before ++ [.run i t]) =
        some (ops ++ [.wr 0x32 1 (encode i), .rd 0x33 1 t, .bnz t 0 (ops.length + 1)])) ∧
    (∀ (a : ArrayName) (base : Nat) (bs : List Byte),
      (a = .data ∧ base = 0x00) ∨ (a = .key ∧ base = 0x10) ∨ (a = .pwd ∧ base = 0x20) → bs.length ≤ 16 →
      ∃ ops, assemble [.wrblk a bs] = some ops ∧ ops.length = bs.length ∧
        ∀ (k : Nat) (hk : k < bs.length), ops[k]? = some (.wr (BitVec.ofNat 6 (base + k)) 1 bs[k])) ∧
    (∀ n x, n ≤ 16 →
      assemble [.rdblk .data n x] = some ((List.range n).map fun k => .rd (BitVec.ofNat 6 k) 1 (x + k))) ∧
    assemble [.clrerr] = some [.wr 0x33 1 0x02]

/-! The register window (20_memory.md). -/

/-- R54: every host read while BUSY = 0, and that it changes no state. The five values ERRCODE reads as are those of
R170. -/
def Obligations.IdleReadMap : Prop :=
  ∀ s : State, s.busy = false →
    (∀ i : Fin 16,
      memRead (BitVec.ofNat 6 i.val) 1 s =
          (if s.data.wr[i] = true then .next (s.data.bytes[i], s) else .fault (.unwritten (.data i))) ∧
        memRead (BitVec.ofNat 6 (0x10 + i.val)) 1 s =
          (if s.key.wr[i] = true then .next (s.key.bytes[i], s) else .fault (.unwritten (.key i))) ∧
        memRead (BitVec.ofNat 6 (0x20 + i.val)) 1 s =
          (if s.pwd.wr[i] = true then .next (s.pwd.bytes[i], s) else .fault (.unwritten (.pwd i)))) ∧
    memRead 0x30 1 s = .next (BitVec.ofNat 8 s.rsize.toNat, s) ∧
    memRead 0x31 1 s = .next (BitVec.ofNat 8 s.pwlen.toNat, s) ∧
    memRead 0x32 1 s = .next (0x00, s) ∧
    memRead 0x33 1 s = .next (BitVec.ofNat 8 (2 * s.err.toNat + s.busy.toNat), s) ∧
    (s.errcode = .noError → memRead 0x34 1 s = .next (0x00, s)) ∧
    (s.errcode = .invalidPassword → memRead 0x34 1 s = .next (0x01, s)) ∧
    (s.errcode = .invalidRsize → memRead 0x34 1 s = .next (0x02, s)) ∧
    (s.errcode = .illegalCommand → memRead 0x34 1 s = .next (0x03, s)) ∧
    (s.errcode = .busyWrite → memRead 0x34 1 s = .next (0x04, s)) ∧
    ∀ off : Offset, 0x35 ≤ off → memRead off 1 s = .next (0x00, s)

/-- R55: every host write while BUSY = 0. -/
def Obligations.IdleWriteMap : Prop :=
  ∀ (s : State) (v : Byte), s.busy = false →
    (∀ i : Fin 16,
      memWrite (BitVec.ofNat 6 i.val) 1 v s =
          .next { s with data := { bytes := s.data.bytes.set i v, wr := s.data.wr.set i true } } ∧
        memWrite (BitVec.ofNat 6 (0x10 + i.val)) 1 v s =
          .next { s with key := { bytes := s.key.bytes.set i v, wr := s.key.wr.set i true } } ∧
        memWrite (BitVec.ofNat 6 (0x20 + i.val)) 1 v s =
          .next { s with pwd := { bytes := s.pwd.bytes.set i v, wr := s.pwd.wr.set i true } }) ∧
    memWrite 0x30 1 v s = .next { s with rsize := v.extractLsb' 0 5 } ∧
    memWrite 0x31 1 v s = .next { s with pwlen := v.extractLsb' 0 5 } ∧
    memWrite 0x32 1 v s = issue v s ∧
    memWrite 0x33 1 v s =
      .next (if v.getLsbD 1 = true then { s with err := false, errcode := .noError } else s) ∧
    ∀ off : Offset, 0x34 ≤ off → memWrite off 1 v s = .next s

/-- Every host access while BUSY = 1 (R57). A read of 0x00..0x31 is a draw, whatever the byte holds; that the draw is
number `drawn` of the free value, and that the count advances by 1, is the model's choice (log, entry 2). A write of
0x00..0x32 is dropped with BUSY_WRITE, recorded as R172 says. No write changes an operand of the pending command. -/
def Obligations.BusyAccesses : Prop :=
  ∀ s : State, s.busy = true →
    (∀ off : Offset, off ≤ 0x31 →
      memRead off 1 s = .next (Config.draw s.drawn, { s with drawn := s.drawn + 1 })) ∧
    memRead 0x32 1 s = .next (0x00, s) ∧
    memRead 0x33 1 s = .next (BitVec.ofNat 8 (2 * s.err.toNat + 1), s) ∧
    (s.errcode = .noError → memRead 0x34 1 s = .next (0x00, s)) ∧
    (s.errcode = .invalidPassword → memRead 0x34 1 s = .next (0x01, s)) ∧
    (s.errcode = .invalidRsize → memRead 0x34 1 s = .next (0x02, s)) ∧
    (s.errcode = .illegalCommand → memRead 0x34 1 s = .next (0x03, s)) ∧
    (s.errcode = .busyWrite → memRead 0x34 1 s = .next (0x04, s)) ∧
    (∀ off : Offset, 0x35 ≤ off → memRead off 1 s = .next (0x00, s)) ∧
    (∀ (off : Offset) (v : Byte), off ≤ 0x32 →
      memWrite off 1 v s =
        .next { s with errcode := if s.err = true then s.errcode else .busyWrite, err := true }) ∧
    (∀ v : Byte, memWrite 0x33 1 v s =
      .next (if v.getLsbD 1 = true then { s with err := false, errcode := .noError } else s)) ∧
    (∀ (off : Offset) (v : Byte), 0x34 ≤ off → memWrite off 1 v s = .next s) ∧
    ∀ (off : Offset) (v : Byte) (t : State), memWrite off 1 v s = .next t →
      t.data = s.data ∧ t.key = s.key ∧ t.pwd = s.pwd ∧ t.rsize = s.rsize ∧ t.pwlen = s.pwlen ∧ t.pend = s.pend

/-- An access of any width but one byte is refused (20_memory.md, access width), at every offset, busy or not. -/
def Obligations.WideAccessIsRefused : Prop :=
  ∀ (off : Offset) (width : Nat) (v : Byte) (s : State), width ≠ 1 →
    memRead off width s = .refused .wideAccess ∧ memWrite off width v s = .refused .wideAccess

/-- While BUSY = 0, a byte of DATA, KEY or PWD just written reads back as written; RSIZE and PWLEN read back their five
bits; and no other offset of the window reads differently. -/
def Obligations.WriteThenReadReturnsTheByte : Prop :=
  ∀ (s : State) (off : Offset) (v : Byte), s.busy = false → off ≤ 0x31 →
    ∃ t, memWrite off 1 v s = .next t ∧
      memRead off 1 t = .next (if off < 0x30 then v else v &&& 0x1F, t) ∧
      ∀ off' : Offset, off' ≠ off → readReg (Reg.ofOffset off') t = readReg (Reg.ofOffset off') s

/-- A read at any offset, of any width, in any state, changes no register: at most the model's own count of draws
advances, and only while busy (log, entry 2). -/
def Obligations.ReadsChangeNoRegister : Prop :=
  ∀ (off : Offset) (width : Nat) (b : Byte) (s t : State), memRead off width s = .next (b, t) →
    t = { s with drawn := t.drawn } ∧ (s.busy = false → t = s)

/-! Issue (40_command_execution.md, 60_exceptions.md). -/

/-- R102: the issue check of each command, on the register values at the write, and what a failed check does. The last
clause is the read of an unwritten password byte, with every written one a password character. -/
def Obligations.IssueChecks : Prop :=
  ∀ s : State, s.busy = false →
    (∀ c : Byte, c = 0x00 ∨ c = 0x03 ∨ c = 0x06 ∨ (0x10 ≤ c ∧ c ≤ 0x1E) →
      memWrite 0x32 1 c s = .next { s with pend := some c, busy := true }) ∧
    (∀ c : Byte, c = 0x01 ∨ c = 0x02 →
      memWrite 0x32 1 c s =
        .next (if 1 ≤ s.rsize.toNat ∧ s.rsize.toNat ≤ 16 then { s with pend := some c, busy := true }
          else raiseError .invalidRsize s)) ∧
    memWrite 0x32 1 0x05 s =
      .next (if s.rsize.toNat = 16 then { s with pend := some 0x05, busy := true }
        else raiseError .invalidRsize s) ∧
    (¬(8 ≤ s.pwlen.toNat ∧ s.pwlen.toNat ≤ 16) →
      memWrite 0x32 1 0x04 s = .next (raiseError .invalidPassword s)) ∧
    (8 ≤ s.pwlen.toNat → s.pwlen.toNat ≤ 16 →
      (∀ k : Fin 16, k.val < s.pwlen.toNat → s.pwd.wr[k] = true) →
      ((∀ k : Fin 16, k.val < s.pwlen.toNat → 0x21 ≤ s.pwd.bytes[k] ∧ s.pwd.bytes[k] ≤ 0x7E) →
        memWrite 0x32 1 0x04 s = .next { s with pend := some 0x04, busy := true }) ∧
      ((∃ k : Fin 16, k.val < s.pwlen.toNat ∧ ¬(0x21 ≤ s.pwd.bytes[k] ∧ s.pwd.bytes[k] ≤ 0x7E)) →
        memWrite 0x32 1 0x04 s = .next (raiseError .invalidPassword s))) ∧
    (8 ≤ s.pwlen.toNat → s.pwlen.toNat ≤ 16 →
      (∃ k : Fin 16, k.val < s.pwlen.toNat ∧ s.pwd.wr[k] = false) →
      (∀ k : Fin 16, k.val < s.pwlen.toNat → s.pwd.wr[k] = true →
        0x21 ≤ s.pwd.bytes[k] ∧ s.pwd.bytes[k] ≤ 0x7E) →
      ∃ k : Fin 16, k.val < s.pwlen.toNat ∧ s.pwd.wr[k] = false ∧
        memWrite 0x32 1 0x04 s = .fault (.unwritten (.pwd k)))

/-- A command that passes its checks is accepted, whatever STATUS.ERR and ERRCODE hold; it runs as it would without an
error; and the two keep their values throughout (R103). That GEN writes the same bytes in the two runs compared, because
both take the same draws, is the model's choice (log, entry 2): R107 excepts GEN, and says nothing of the kind. -/
def Obligations.AcceptanceIgnoresTheError : Prop :=
  ∀ (s : State) (i : Instr) (e : Bool) (code : ErrCode),
    (∀ c : Byte, s.busy = false → decode c = .command i → issueCheck i s = .next .noError →
      memWrite 0x32 1 c { s with err := e, errcode := code } =
        .next { s with err := e, errcode := code, pend := some c, busy := true }) ∧
    ∀ t : State, exec i s = .next t →
      exec i { s with err := e, errcode := code } = .next { t with err := e, errcode := code }

/-- R172: what recording an error does, that the first code wins, and that a bus write which records an error has no
other effect, in any state and whichever error it is. -/
def Obligations.ErrorsAreRecordedAndDoNothingElse : Prop :=
  (∀ (code : ErrCode) (s : State),
    raiseError code s = { s with errcode := if s.err = false then code else s.errcode, err := true }) ∧
    (∀ (a b : ErrCode) (s : State), (raiseError b (raiseError a s)) = raiseError a s) ∧
    ∀ (off : Offset) (width : Nat) (v : Byte) (s t : State), memWrite off width v s = .next t →
      (s.err = false ∧ t.err = true) →
        ∃ code, code ≠ .noError ∧ t = { s with errcode := code, err := true }

/-- R174: the W1C clear, busy or not; reset clears too; and no other step of the machine clears ERR, or sets ERRCODE back
to 0x00. -/
def Obligations.OnlyW1cAndResetClearTheError : Prop :=
  (∀ (s : State) (v : Byte), v.getLsbD 1 = true →
    memWrite 0x33 1 v s = .next { s with err := false, errcode := .noError }) ∧
    (∀ s : State, (coreReset s).err = false ∧ (coreReset s).errcode = .noError) ∧
    ∀ s t : State, step s = .next t →
      (s.err = true ∧ t.err = false) ∨ (s.errcode ≠ .noError ∧ t.errcode = .noError) →
        nextTurn s = .reset ∨ ∃ v : Byte, hostNext (.wr 0x33 1 v) s ∧ v.getLsbD 1 = true

/-- BUSY rises only at the issue of a legal command, with that command's byte in PEND, and falls only at a core turn or at
reset. -/
def Obligations.BusyFollowsTheLifecycle : Prop :=
  ∀ s t : State, step s = .next t →
    (s.busy = false → t.busy = true →
      ∃ (c : Byte) (i : Instr), hostNext (.wr 0x32 1 c) s ∧ decode c = .command i ∧ t.pend = some c) ∧
    (s.busy = true → t.busy = false → nextTurn s = .core ∨ nextTurn s = .reset)

/-- While a command is pending, no host turn changes an operand register, PEND or BUSY: commands never overlap, and the
operands a command sees at completion are the register values at its issue. -/
def Obligations.HostCannotTouchAPendingCommand : Prop :=
  ∀ s t : State, s.busy = true → nextTurn s = .host → step s = .next t →
    t.data = s.data ∧ t.key = s.key ∧ t.pwd = s.pwd ∧ t.rsize = s.rsize ∧ t.pwlen = s.pwlen ∧
      t.pend = s.pend ∧ t.busy = true

/-- PWD and PWLEN change only by a host write to their own offsets while BUSY = 0, or at reset: no command writes them. -/
def Obligations.OnlyTheHostWritesThePassword : Prop :=
  ∀ s t : State, step s = .next t →
    (t.pwd ≠ s.pwd → nextTurn s = .reset ∨
      ∃ (i : Fin 16) (v : Byte), hostNext (.wr (BitVec.ofNat 6 (0x20 + i.val)) 1 v) s ∧ s.busy = false) ∧
    (t.pwlen ≠ s.pwlen → nextTurn s = .reset ∨ ∃ v : Byte, hostNext (.wr 0x31 1 v) s ∧ s.busy = false)

/-! The block codec (41_block_codec.md). -/

/-- R120: each byte of a round key. -/
def Obligations.RoundKeyBytes : Prop :=
  ∀ (K : Block) (r : Nat) (i : Fin 16), r ≤ 14 → (roundKey K r)[i] = K[i] ^^^ (0x4D ^^^ BitVec.ofNat 8 r)

/-- R121: the 15 round constants, that they are pairwise distinct, and so are the round keys of one key. -/
def Obligations.RoundConstantsAreDistinct : Prop :=
  (List.range 15).map roundConst =
      [0x4D, 0x4C, 0x4F, 0x4E, 0x49, 0x48, 0x4B, 0x4A, 0x45, 0x44, 0x47, 0x46, 0x41, 0x40, 0x43] ∧
    (∀ r q : Nat, r ≤ 14 → q ≤ 14 → r ≠ q → roundConst r ≠ roundConst q) ∧
    ∀ (K : Block) (r q : Nat), r ≤ 14 → q ≤ 14 → r ≠ q → roundKey K r ≠ roundKey K q

/-- R122: the swap is the permutation p_n, makes floor(n/2) swaps, leaves bytes n..15 and, for odd n, byte n-1 alone, and
is its own inverse. -/
def Obligations.SwapIsThePairPermutation : Prop :=
  ∀ (B : Block) (n : Nat), 1 ≤ n → n ≤ 16 →
    (∀ i : Fin 16, (swapPairs B n)[i] = byteAt B (pairIndex n i.val)) ∧
    ((List.range 16).filter fun i => i % 2 = 1 ∧ i < n).length = n / 2 ∧
    (∀ i : Fin 16, n ≤ i.val ∨ (n % 2 = 1 ∧ i.val = n - 1) → (swapPairs B n)[i] = B[i]) ∧
    (∀ i : Nat, pairIndex n (pairIndex n i) = i) ∧
    swapPairs (swapPairs B n) n = B

/-- R123: the key mix, byte by byte; K is read below n only; and the mix is its own inverse. -/
def Obligations.KeyMixIsAnInvolution : Prop :=
  ∀ (B K : Block) (r n : Nat), r ≤ 14 → 1 ≤ n → n ≤ 16 →
    (∀ i : Fin 16, (keyMix B K r n)[i] = if i.val < n then B[i] ^^^ (roundKey K r)[i] else B[i]) ∧
    (∀ K' : Block, (∀ i : Fin 16, i.val < n → K'[i] = K[i]) → keyMix B K' r n = keyMix B K r n) ∧
    keyMix (keyMix B K r n) K r n = B

/-- R127: the closed form of Encrypt. -/
def Obligations.EncryptClosedForm : Prop :=
  ∀ (B K : Block) (n : Nat) (i : Fin 16), 1 ≤ n → n ≤ 16 → i.val < n →
    (encrypt B K n)[i] = byteAt B (pairIndex n i.val) ^^^ byteAt K (pairIndex n i.val) ^^^ 0x42

/-- R129: Decrypt inverts Encrypt and Encrypt inverts Decrypt; the closed form of Decrypt; and ENC completed, then DEC
completed, leave DATA as it was before. -/
def Obligations.EncryptAndDecryptAreInverse : Prop :=
  (∀ (B K : Block) (n : Nat), 1 ≤ n → n ≤ 16 →
    decrypt (encrypt B K n) K n = B ∧ encrypt (decrypt B K n) K n = B ∧
      ∀ i : Fin 16, i.val < n → (decrypt B K n)[i] = byteAt B (pairIndex n i.val) ^^^ K[i] ^^^ 0x42) ∧
    ∀ s : State, 1 ≤ s.rsize.toNat → s.rsize.toNat ≤ 16 →
      (∀ i : Fin 16, i.val < s.rsize.toNat → s.data.wr[i] = true ∧ s.key.wr[i] = true) →
      ∃ t u, exec .enc s = .next t ∧ exec .dec t = .next u ∧ u.data = s.data

/-- R134: rounds 4j to 4j+3 compose to the identity, so Encrypt is its last three rounds. -/
def Obligations.EncryptHasAFourRoundPeriod : Prop :=
  ∀ (B K : Block) (n : Nat), 1 ≤ n → n ≤ 16 →
    (∀ j : Nat, j ≤ 2 → [4 * j, 4 * j + 1, 4 * j + 2, 4 * j + 3].foldl (encRound K n) B = B) ∧
    encrypt B K n = [12, 13, 14].foldl (encRound K n) B

/-- Lanes at and above n are neither read nor written by Encrypt or Decrypt: they keep their bytes, and lanes below n of
the result depend only on lanes below n of the block and the key. -/
def Obligations.InactiveLanesAreUntouched : Prop :=
  ∀ (B B' K K' : Block) (n : Nat), 1 ≤ n → n ≤ 16 →
    (∀ i : Fin 16, n ≤ i.val → (encrypt B K n)[i] = B[i] ∧ (decrypt B K n)[i] = B[i]) ∧
    ((∀ i : Fin 16, i.val < n → B[i] = B'[i] ∧ K[i] = K'[i]) →
      ∀ i : Fin 16, i.val < n →
        (encrypt B K n)[i] = (encrypt B' K' n)[i] ∧ (decrypt B K n)[i] = (decrypt B' K' n)[i])

/-- R155: the closed form of password encoding. -/
def Obligations.EncodePasswordRepeats : Prop :=
  ∀ (s : Block) (L : Nat) (i : Fin 16), 8 ≤ L → L ≤ 16 →
    (encodePassword s L)[i] = byteAt s (i.val % L)

/-! Completion of each command (41_block_codec.md, 42_key_material.md): where it completes and what it leaves. The next
state is written as the old one with the registers the command writes, PEND none and BUSY 0. -/

/-- NOP completes in every state, and only ends its completion. -/
def Obligations.NopCompletes : Prop :=
  ∀ s : State, exec .nop s = .next { s with pend := none, busy := false }

/-- ENC completes with RSIZE in 1..16 and its operand bytes written; DATA[0..RSIZE) takes the ciphertext. -/
def Obligations.EncCompletes : Prop :=
  ∀ s : State, 1 ≤ s.rsize.toNat → s.rsize.toNat ≤ 16 →
    (∀ i : Fin 16, i.val < s.rsize.toNat → s.data.wr[i] = true ∧ s.key.wr[i] = true) →
    ∃ C : Block,
      exec .enc s = .next { s with data := { bytes := C, wr := s.data.wr }, pend := none, busy := false } ∧
      ∀ i : Fin 16, C[i] =
        if i.val < s.rsize.toNat then
          byteAt s.data.bytes (pairIndex s.rsize.toNat i.val) ^^^
            byteAt s.key.bytes (pairIndex s.rsize.toNat i.val) ^^^ 0x42
        else s.data.bytes[i]

/-- DEC completes with RSIZE in 1..16 and its operand bytes written; DATA[0..RSIZE) takes the plaintext. -/
def Obligations.DecCompletes : Prop :=
  ∀ s : State, 1 ≤ s.rsize.toNat → s.rsize.toNat ≤ 16 →
    (∀ i : Fin 16, i.val < s.rsize.toNat → s.data.wr[i] = true ∧ s.key.wr[i] = true) →
    ∃ P : Block,
      exec .dec s = .next { s with data := { bytes := P, wr := s.data.wr }, pend := none, busy := false } ∧
      ∀ i : Fin 16, P[i] =
        if i.val < s.rsize.toNat then
          byteAt s.data.bytes (pairIndex s.rsize.toNat i.val) ^^^ s.key.bytes[i] ^^^ 0x42
        else s.data.bytes[i]

/-- RKEY r completes with KEY written, for every r in 0..14; DATA takes round key r, and RSIZE becomes 16. -/
def Obligations.RkeyCompletes : Prop :=
  ∀ (s : State) (r : BitVec 4), r.toNat ≤ 14 → (∀ i : Fin 16, s.key.wr[i] = true) →
    ∃ D : Block,
      exec (.rkey r) s =
        .next { s with
          data := { bytes := D, wr := Vector.replicate 16 true }, rsize := 16, pend := none, busy := false } ∧
      ∀ i : Fin 16, D[i] = s.key.bytes[i] ^^^ (0x4D ^^^ BitVec.ofNat 8 r.toNat)

/-- GEN completes in every state; byte i of DATA is the draw of its own, and RSIZE becomes 16. The bytes are free values
(log, entry 2): nothing is said of which. -/
def Obligations.GenCompletes : Prop :=
  ∀ s : State, ∃ D : Block,
    exec .gen s =
      .next { s with
        data := { bytes := D, wr := Vector.replicate 16 true }, rsize := 16, drawn := s.drawn + 16,
        pend := none, busy := false } ∧
    ∀ i : Fin 16, D[i] = Config.draw (s.drawn + i.val)

/-- FROMPW completes with PWLEN in 8..16 and PWD[0..PWLEN) written; KEY takes the password repeated cyclically. -/
def Obligations.FromPwCompletes : Prop :=
  ∀ s : State, 8 ≤ s.pwlen.toNat → s.pwlen.toNat ≤ 16 →
    (∀ i : Fin 16, i.val < s.pwlen.toNat → s.pwd.wr[i] = true) →
    ∃ K : Block,
      exec .fromPw s =
        .next { s with key := { bytes := K, wr := Vector.replicate 16 true }, pend := none, busy := false } ∧
      ∀ i : Fin 16, K[i] = byteAt s.pwd.bytes (i.val % s.pwlen.toNat)

/-- MOVDK completes with DATA written; KEY takes DATA byte for byte. -/
def Obligations.MovdkCompletes : Prop :=
  ∀ s : State, (∀ i : Fin 16, s.data.wr[i] = true) →
    exec .movdk s =
      .next { s with
        key := { bytes := s.data.bytes, wr := Vector.replicate 16 true }, pend := none, busy := false }

/-- MOVKD completes with KEY written; DATA takes KEY byte for byte, and RSIZE becomes 16. -/
def Obligations.MovkdCompletes : Prop :=
  ∀ s : State, (∀ i : Fin 16, s.key.wr[i] = true) →
    exec .movkd s =
      .next { s with
        data := { bytes := s.key.bytes, wr := Vector.replicate 16 true }, rsize := 16, pend := none,
        busy := false }

/-- A command whose operands are in range completes when every byte it reads is written, and faults at one of the
unwritten ones when some byte it reads is not: it writes nothing then. -/
def Obligations.UnwrittenOperandsDecideCompletion : Prop :=
  ∀ (i : Instr) (s : State), OperandsDefined i s →
    (OperandsWritten i s → ∃ t, exec i s = .next t) ∧
    (¬OperandsWritten i s → ∃ l ∈ operandLocs i s, s.written l = false ∧ exec i s = .fault (.unwritten l))

/-! Frames. -/

/-- R109: the registers each command writes at completion; every other register is unchanged, STATUS.ERR and ERRCODE among
them; BUSY is set at the issue and cleared at the completion. -/
def Obligations.RegistersEachCommandWrites : Prop :=
  (∀ (c : Byte) (s : State), (accept c s).busy = true) ∧
  ∀ (i : Instr) (s t : State), exec i s = .next t →
    t.busy = false ∧ t.pend = none ∧ t.pwd = s.pwd ∧ t.pwlen = s.pwlen ∧ t.err = s.err ∧ t.errcode = s.errcode ∧
    match i with
    | .nop => t.data = s.data ∧ t.key = s.key ∧ t.rsize = s.rsize
    | .enc => (∀ k : Fin 16, s.rsize.toNat ≤ k.val → t.data.bytes[k] = s.data.bytes[k]) ∧
        t.data.wr = s.data.wr ∧ t.key = s.key ∧ t.rsize = s.rsize
    | .dec => (∀ k : Fin 16, s.rsize.toNat ≤ k.val → t.data.bytes[k] = s.data.bytes[k]) ∧
        t.data.wr = s.data.wr ∧ t.key = s.key ∧ t.rsize = s.rsize
    | .rkey _ => t.key = s.key ∧ t.rsize = 16
    | .gen => t.key = s.key ∧ t.rsize = 16
    | .fromPw => t.data = s.data ∧ t.rsize = s.rsize
    | .movdk => t.data = s.data ∧ t.rsize = s.rsize
    | .movkd => t.key = s.key ∧ t.rsize = 16

/-- Frame of ENC and DEC over the window: every offset but DATA[0..RSIZE) and STATUS reads as before; the host, the
schedule and the count of draws are unchanged. The registers written are DATA[0..RSIZE), PEND and BUSY. -/
def Obligations.CodecFrame : Prop :=
  ∀ (i : Instr) (s t : State), i = .enc ∨ i = .dec → exec i s = .next t →
    (∀ off : Offset, s.rsize.toNat ≤ off.toNat → off ≠ 0x33 →
      readReg (Reg.ofOffset off) t = readReg (Reg.ofOffset off) s) ∧
    t.err = s.err ∧ t.drawn = s.drawn ∧ t.program = s.program ∧ t.hpc = s.hpc ∧ t.vars = s.vars ∧ t.sched = s.sched ∧
    t.gap = s.gap ∧ t.gaps = s.gaps

/-- Frame of the commands that write all of DATA (RKEY, GEN, MOVKD): every offset but DATA, RSIZE and STATUS reads as
before; the host and the turns to come are unchanged. That GEN advances the count of draws by 16 is the model's choice
(log, entry 2). The registers written are DATA, RSIZE, PEND and BUSY. -/
def Obligations.DataLoadFrame : Prop :=
  ∀ (i : Instr) (s t : State), (∃ r, i = .rkey r) ∨ i = .gen ∨ i = .movkd → exec i s = .next t →
    (∀ off : Offset, 0x10 ≤ off → off ≠ 0x30 → off ≠ 0x33 →
      readReg (Reg.ofOffset off) t = readReg (Reg.ofOffset off) s) ∧
    t.err = s.err ∧ t.drawn = s.drawn + (if i = .gen then 16 else 0) ∧
    t.program = s.program ∧ t.hpc = s.hpc ∧ t.vars = s.vars ∧ t.sched = s.sched ∧
    t.gap = s.gap ∧ t.gaps = s.gaps

/-- Frame of the commands that write all of KEY, and of NOP: every offset but STATUS and, for FROMPW and MOVDK, KEY reads
as before; the host, the schedule and the count of draws are unchanged. The registers written are KEY (not by NOP), PEND
and BUSY. -/
def Obligations.KeyLoadFrame : Prop :=
  ∀ (i : Instr) (s t : State), i = .fromPw ∨ i = .movdk ∨ i = .nop → exec i s = .next t →
    (∀ off : Offset, (off < 0x10 ∨ 0x20 ≤ off ∨ i = .nop) → off ≠ 0x33 →
      readReg (Reg.ofOffset off) t = readReg (Reg.ofOffset off) s) ∧
    t.err = s.err ∧ t.drawn = s.drawn ∧ t.program = s.program ∧ t.hpc = s.hpc ∧ t.vars = s.vars ∧ t.sched = s.sched ∧
    t.gap = s.gap ∧ t.gaps = s.gaps

/-- Every command but GEN computes its writes from the operand registers alone (R107): two states that agree on them,
whatever else they hold, give the same registers or the same fault. GEN's bytes are draws; that byte k is draw number
`drawn + k` of the free value is the model's choice (log, entry 2). -/
def Obligations.CommandsAreFunctionsOfTheRegisters : Prop :=
  (∀ (i : Instr) (s t : State), i ≠ .gen →
    s.data = t.data → s.key = t.key → s.pwd = t.pwd → s.rsize = t.rsize → s.pwlen = t.pwlen →
    (∀ s' : State, exec i s = .next s' →
      ∃ t', exec i t = .next t' ∧ s'.data = t'.data ∧ s'.key = t'.key ∧ s'.pwd = t'.pwd ∧
        s'.rsize = t'.rsize ∧ s'.pwlen = t'.pwlen) ∧
    ∀ f, exec i s = .fault f → exec i t = .fault f) ∧
    ∀ s s' : State, exec .gen s = .next s' → ∀ k : Fin 16, s'.data.bytes[k] = Config.draw (s.drawn + k.val)

/-! The machine (10_state.md, 40_command_execution.md, 70_reset_and_hazards.md). -/

/-- A core turn with a legal byte in PEND runs the meaning of the command it decodes to (R104), the turn used up; and so
does the step after a command byte is placed. That turns are data which a step uses up (log, entry 4), and that
`withFetchWord` stands for an accepted issue (log, entry 13), are the model's choices. -/
def Obligations.StepRunsThePendingCommand : Prop :=
  (∀ (s : State) (c : Byte) (i : Instr), nextTurn s = .core → s.pend = some c → decode c = .command i →
    step s = exec i (dropTurn s)) ∧
    ∀ (s : State) (w : Nat) (i : Instr), w < 256 → decode (BitVec.ofNat 8 w) = .command i →
      step (s.withFetchWord 8 w) = exec i { s with pend := some (BitVec.ofNat 8 w), busy := true }

/-- A host turn performs the operation at the host's step index (R62, R85): a bus write, a bus read kept in a variable, a
branch on a variable's bit, or the end; past the program it makes no access. The model's choices in it: a step uses up one
turn (log, entry 4), at `halt` and past the program the turn passes (log, entry 5), and a branch on a variable never
written reads a free value (log, entry 6). -/
def Obligations.StepRunsTheHostOperation : Prop :=
  ∀ s : State,
    (∀ (off : Offset) (v : Byte) (u : State), hostNext (.wr off 1 v) s →
      memWrite off 1 v (dropTurn s) = .next u → step s = .next { u with hpc := u.hpc + 1 }) ∧
    (∀ (off : Offset) (x : Nat) (b : Byte) (u : State), hostNext (.rd off 1 x) s →
      memRead off 1 (dropTurn s) = .next (b, u) →
      ∃ t, step s = .next t ∧ t = { u with hpc := u.hpc + 1, vars := t.vars } ∧
        (Vars.wf u.vars = true → ∀ y, Vars.get y t.vars = if y = x then b else Vars.get y u.vars)) ∧
    (∀ (x : Nat) (bit : Fin 8) (target : Nat), hostNext (.bnz x bit target) s →
      step s = .next { dropTurn s with
        hpc := if (Vars.get x s.vars).getLsbD bit.val = true then target else s.hpc + 1 }) ∧
    (hostNext .halt s → step s = .next (dropTurn s)) ∧
    (nextTurn s = .host → s.program[s.hpc]? = none → step s = .next (dropTurn s))

/-- R200: the reset event, from any state, a pending command or not. -/
def Obligations.ResetEvent : Prop :=
  ∀ s : State, nextTurn s = .reset → ∃ t, step s = .next t ∧
    t.rsize = 16 ∧ t.pwlen = 0 ∧ t.busy = false ∧ t.err = false ∧ t.errcode = .noError ∧ t.pend = none ∧
    (∀ i : Fin 16, t.data.wr[i] = false ∧ t.key.wr[i] = false ∧ t.pwd.wr[i] = false) ∧
    readReg .status t = .next 0x00 ∧
    ∀ i : Fin 16, readReg (.data i) t = .fault (.unwritten (.data i)) ∧
      readReg (.key i) t = .fault (.unwritten (.key i)) ∧ readReg (.pwd i) t = .fault (.unwritten (.pwd i))

/-- The machine right after reset: the values the spec gives, everything unwritten, and the first access may issue a
command. The host's empty program and the empty schedule are the model's choice (log, entries 4 and 5). -/
def Obligations.ResetStateIsIdleAndReady : Prop :=
  State.reset.rsize = 16 ∧ State.reset.pwlen = 0 ∧ State.reset.busy = false ∧ State.reset.err = false ∧
    State.reset.errcode = .noError ∧ State.reset.pend = none ∧
    (∀ l : Loc, State.reset.written l = false) ∧
    State.reset.program = [] ∧ State.reset.sched = [] ∧
    memWrite 0x32 1 0x00 State.reset = .next { State.reset with pend := some 0x00, busy := true }

/-- The invariant holds after reset. -/
def Obligations.ResetSatisfiesInv : Prop := State.reset.Inv

/-- Every step keeps the invariant, from any state that meets it, whoever's turn it is: BUSY says whether a command is
pending; ERR says whether ERRCODE holds a code; a pending command is a legal one that its issue check admits; the host's
variables stay in canonical form. -/
def Obligations.StepKeepsInv : Prop :=
  ∀ s t : State, s.Inv → step s = .next t → t.Inv

/-- Under the invariant a step stops only as the spec says: at an unwritten byte, or at a wide access. The two faults of
the model that no command meets in a reachable state (log, entry 9) do not occur. -/
def Obligations.StepsStopOnlyAsTheSpecSays : Prop :=
  ∀ s : State, s.Inv →
    (∀ f, step s = .fault f → ∃ l, s.written l = false ∧ f = .unwritten l) ∧
    (∀ r, step s = .refused r →
      r = .wideAccess ∧ ∃ (off : Offset) (width : Nat), width ≠ 1 ∧
        ((∃ v, hostNext (.wr off width v) s) ∨ ∃ x, hostNext (.rd off width x) s))

/-- A pending command reaches its completion: within as many steps as there are turns left before the core's, the run
comes to a state in which it is still pending on the same operands, and there the next step is its completion, which
clears BUSY or faults at an unwritten operand byte; unless a reset turn that the schedule lists, or a wide host access,
comes first. That the turns before the core's are finite is the model's form of the fairness of completion (R209; log,
entry 4). -/
def Obligations.PendingCommandsReachTheirCompletion : Prop :=
  ∀ (s : State) (c : Byte) (i : Instr), s.Inv → s.pend = some c → decode c = .command i →
    ∃ (k : Nat) (t : State), k ≤ s.sched.length + s.gap ∧ runSteps k s = .next t ∧
      t.pend = some c ∧ t.busy = true ∧ t.data = s.data ∧ t.key = s.key ∧ t.pwd = s.pwd ∧
      t.rsize = s.rsize ∧ t.pwlen = s.pwlen ∧
      ((nextTurn t = .core ∧
          ((∃ u, step t = .next u ∧ u.busy = false ∧ u.pend = none) ∨
            ∃ l ∈ operandLocs i s, s.written l = false ∧ step t = .fault (.unwritten l))) ∨
        (nextTurn t = .reset ∧ .reset ∈ s.sched) ∨
        (step t = .refused .wideAccess ∧ ∃ (off : Offset) (width : Nat), width ≠ 1 ∧
          ((∃ v, hostNext (.wr off width v) t) ∨ ∃ x, hostNext (.rd off width x) t)))

/-- A run of any length from a state that meets the invariant is safe: if it ends in a fault, the fault is the spec's own
`Unwritten`, never one of the two internal faults (log, entry 9). -/
def Obligations.RunsFromInvAreSafe : Prop :=
  ∀ (k : Nat) (s : State), s.Inv → SafeRun k s

/-- No step depends on the value of an unwritten byte: two states that differ at most in those values stop alike, or step to
states that differ at most in those values. So the byte values the model gives registers at reset (log, entry 1) are never
seen. That GEN's bytes and the bytes read while busy agree in the two steps, because both take the same draws (log,
entry 2), and that both give the same agent its turn (log, entries 4 and 19), are the model's choices. -/
def Obligations.UnwrittenBytesAreInvisible : Prop :=
  ∀ s t : State, s.SameWritten t → OutcomeSameWritten (step s) (step t)

/-- The window as the bus sees it (20_memory.md, address spaces): offset off is at bus address REG_BASE + off; a bus
address selects an offset exactly when it is one of the 64 from REG_BASE to REG_BASE + 0x3F, and it is then that offset's
address; and each offset belongs to one register. That these addresses do not wrap is the model's choice (log,
entry 14). -/
def Obligations.WindowIsSixtyFourBytes : Prop :=
  (∀ off : Offset, windowOffset (busAddress off) = some off ∧ busAddress off = Config.regBase + off.toNat) ∧
    (∀ a : Nat, (∃ off, windowOffset a = some off) ↔ Config.regBase ≤ a ∧ a ≤ Config.regBase + 0x3F) ∧
    (∀ (a : Nat) (off : Offset), windowOffset a = some off → busAddress off = a) ∧
    (∀ off : Offset, (Reg.ofOffset off).offset = off) ∧ ∀ r : Reg, Reg.ofOffset r.offset = r

/-- How turns follow each other, which is the model's choice (log, entry 4). A listed turn comes next, and using it up
changes the list alone. Past the list: a pending command completes at the next turn when the gap has passed (R212 lets it
fall there), a host turn comes otherwise, never a reset; each turn takes one off the gap, and when the gap has passed the
next one is a free value, finite as R209 asks. -/
def Obligations.TurnsFollowTheSchedule : Prop :=
  ∀ s : State,
    (∀ (t : Turn) (rest : List Turn), s.sched = t :: rest →
      nextTurn s = t ∧ dropTurn s = { s with sched := rest }) ∧
    (s.sched = [] →
      (nextTurn s = .core ↔ s.pend ≠ none ∧ s.gap = 0) ∧
      (nextTurn s = .host ↔ s.pend = none ∨ s.gap ≠ 0) ∧
      (∀ g, s.gap = g + 1 → dropTurn s = { s with gap := g }) ∧
      (s.gap = 0 → dropTurn s = { s with gap := Config.coreGap s.gaps, gaps := s.gaps + 1 }))
end

