-- ==== Sys2Proof/Laws/Decode.lean ====
section
/-! SUPPORT. The decoder against the opcode table, row by row. -/

namespace Sys2Proof

/-- The 22 rows of the opcode table: the match byte (every mask is 0xFF) and the command it stands for. -/
def opcodeRows : List (Byte × Instr) :=
  [(0x00, .nop), (0x01, .enc), (0x02, .dec), (0x03, .gen), (0x04, .fromPw), (0x05, .movdk), (0x06, .movkd)] ++
  [(0x10, .rkey 0), (0x11, .rkey 1), (0x12, .rkey 2), (0x13, .rkey 3), (0x14, .rkey 4)] ++
  [(0x15, .rkey 5), (0x16, .rkey 6), (0x17, .rkey 7), (0x18, .rkey 8), (0x19, .rkey 9)] ++
  [(0x1A, .rkey 10), (0x1B, .rkey 11), (0x1C, .rkey 12), (0x1D, .rkey 13), (0x1E, .rkey 14)]

/-- Every row decodes to its command, and its command encodes to it. -/
theorem opcodeRows_decode : ∀ row ∈ opcodeRows, decode row.1 = .command row.2 ∧ encode row.2 = row.1 := by decide

/-- No two rows share a byte: decoding is unambiguous. -/
theorem opcodeRows_disjoint : opcodeRows.Pairwise fun a b => a.1 ≠ b.1 := by decide

/-- The fields of an encoded RKEY are OP = 0x1 and SUB = r (rules R80, R81). -/
theorem rkey_fields (r : BitVec 4) : opField (encode (.rkey r)) = 0x1 ∧ subField (encode (.rkey r)) = r := by
  revert r; decide

end Sys2Proof
end

