-- ==== Sys2Proof/Laws/HostVars.lean ====
section
/-! SUPPORT. The host's variables: read after write, and the canonical form. -/

namespace Sys2Proof.Machine

/-- A variable just kept reads as kept; every other variable reads as before. -/
theorem Vars.get_set (x y : Nat) (v : Byte) (vs : List Host.Cell) (h : Vars.wf vs = true) :
    Vars.get y (Vars.set x v vs) = if y = x then v else Vars.get y vs := by
  induction vs with
  | nil => simp [Vars.set, Vars.get]
  | cons c rest ih =>
    obtain ⟨z, b⟩ := c
    have hr : Vars.wf rest = true := by
      cases rest with
      | nil => rfl
      | cons d rest' => simp_all [Vars.wf]
    simp only [Vars.set]
    split
    · simp [Vars.get]
    · split
      · subst_vars; simp only [Vars.get]; split <;> rfl
      · rename_i h1 h2
        simp only [Vars.get, ih hr]
        by_cases hyz : y = z
        · subst hyz; simp [Ne.symm h2]
        · simp [hyz]

theorem Vars.wf_cons {x : Nat} {v : Byte} {vs : List Host.Cell} :
    Vars.wf ((x, v) :: vs) = true ↔ (∀ c, vs.head? = some c → x < c.1) ∧ Vars.wf vs = true := by
  cases vs with
  | nil => simp [Vars.wf]
  | cons d rest => simp [Vars.wf]

theorem Vars.set_head {x : Nat} {v : Byte} {vs : List Host.Cell} {c : Host.Cell}
    (h : (Vars.set x v vs).head? = some c) : c.1 = x ∨ vs.head?.map Prod.fst = some c.1 := by
  cases vs with
  | nil => simp [Vars.set] at h; simp [← h]
  | cons d rest =>
    obtain ⟨z, b⟩ := d
    simp only [Vars.set] at h
    split at h
    · simp at h; simp [← h]
    · split at h <;> simp at h <;> simp [← h]

/-- Keeping a byte keeps the canonical form. -/
theorem Vars.set_wf (x : Nat) (v : Byte) (vs : List Host.Cell) (h : Vars.wf vs = true) :
    Vars.wf (Vars.set x v vs) = true := by
  induction vs with
  | nil => rfl
  | cons d rest ih =>
    obtain ⟨z, b⟩ := d
    obtain ⟨h1, h2⟩ := Vars.wf_cons.mp h
    simp only [Vars.set]
    split
    · exact Vars.wf_cons.mpr ⟨by simpa using ‹x < z›, h⟩
    · split
      · subst_vars; exact Vars.wf_cons.mpr ⟨h1, h2⟩
      · refine Vars.wf_cons.mpr ⟨fun c hc => ?_, ih h2⟩
        obtain e | e := Vars.set_head hc
        · omega
        · cases rest with
          | nil => simp at e
          | cons d' rest' =>
            have := h1 d' rfl
            simp at e; omega

end Sys2Proof.Machine
end

