-- ==== Sys2Proof/Laws/State.lean ====
section
/-! SUPPORT. One lemma per field per update of State, so that no proof unfolds a record update. -/

namespace Sys2Proof.Machine

/-! raiseError: recording an error (R172). -/

@[simp] theorem raiseError_data (code : ErrCode) (s : State) : (raiseError code s).data = s.data := rfl
@[simp] theorem raiseError_key (code : ErrCode) (s : State) : (raiseError code s).key = s.key := rfl
@[simp] theorem raiseError_pwd (code : ErrCode) (s : State) : (raiseError code s).pwd = s.pwd := rfl
@[simp] theorem raiseError_rsize (code : ErrCode) (s : State) : (raiseError code s).rsize = s.rsize := rfl
@[simp] theorem raiseError_pwlen (code : ErrCode) (s : State) : (raiseError code s).pwlen = s.pwlen := rfl
@[simp] theorem raiseError_busy (code : ErrCode) (s : State) : (raiseError code s).busy = s.busy := rfl
@[simp] theorem raiseError_err (code : ErrCode) (s : State) : (raiseError code s).err = true := rfl
@[simp] theorem raiseError_errcode (code : ErrCode) (s : State) : (raiseError code s).errcode = if s.err then s.errcode else code := rfl
@[simp] theorem raiseError_pend (code : ErrCode) (s : State) : (raiseError code s).pend = s.pend := rfl
@[simp] theorem raiseError_drawn (code : ErrCode) (s : State) : (raiseError code s).drawn = s.drawn := rfl
@[simp] theorem raiseError_program (code : ErrCode) (s : State) : (raiseError code s).program = s.program := rfl
@[simp] theorem raiseError_hpc (code : ErrCode) (s : State) : (raiseError code s).hpc = s.hpc := rfl
@[simp] theorem raiseError_vars (code : ErrCode) (s : State) : (raiseError code s).vars = s.vars := rfl
@[simp] theorem raiseError_sched (code : ErrCode) (s : State) : (raiseError code s).sched = s.sched := rfl
@[simp] theorem raiseError_gap (code : ErrCode) (s : State) : (raiseError code s).gap = s.gap := rfl
@[simp] theorem raiseError_gaps (code : ErrCode) (s : State) : (raiseError code s).gaps = s.gaps := rfl

/-! clearError: the W1C clear (R174). -/

@[simp] theorem clearError_data (s : State) : (clearError s).data = s.data := rfl
@[simp] theorem clearError_key (s : State) : (clearError s).key = s.key := rfl
@[simp] theorem clearError_pwd (s : State) : (clearError s).pwd = s.pwd := rfl
@[simp] theorem clearError_rsize (s : State) : (clearError s).rsize = s.rsize := rfl
@[simp] theorem clearError_pwlen (s : State) : (clearError s).pwlen = s.pwlen := rfl
@[simp] theorem clearError_busy (s : State) : (clearError s).busy = s.busy := rfl
@[simp] theorem clearError_err (s : State) : (clearError s).err = false := rfl
@[simp] theorem clearError_errcode (s : State) : (clearError s).errcode = .noError := rfl
@[simp] theorem clearError_pend (s : State) : (clearError s).pend = s.pend := rfl
@[simp] theorem clearError_drawn (s : State) : (clearError s).drawn = s.drawn := rfl
@[simp] theorem clearError_program (s : State) : (clearError s).program = s.program := rfl
@[simp] theorem clearError_hpc (s : State) : (clearError s).hpc = s.hpc := rfl
@[simp] theorem clearError_vars (s : State) : (clearError s).vars = s.vars := rfl
@[simp] theorem clearError_sched (s : State) : (clearError s).sched = s.sched := rfl
@[simp] theorem clearError_gap (s : State) : (clearError s).gap = s.gap := rfl
@[simp] theorem clearError_gaps (s : State) : (clearError s).gaps = s.gaps := rfl

/-! accept: acceptance of a command (R103). -/

@[simp] theorem accept_data (c : Byte) (s : State) : (accept c s).data = s.data := rfl
@[simp] theorem accept_key (c : Byte) (s : State) : (accept c s).key = s.key := rfl
@[simp] theorem accept_pwd (c : Byte) (s : State) : (accept c s).pwd = s.pwd := rfl
@[simp] theorem accept_rsize (c : Byte) (s : State) : (accept c s).rsize = s.rsize := rfl
@[simp] theorem accept_pwlen (c : Byte) (s : State) : (accept c s).pwlen = s.pwlen := rfl
@[simp] theorem accept_busy (c : Byte) (s : State) : (accept c s).busy = true := rfl
@[simp] theorem accept_err (c : Byte) (s : State) : (accept c s).err = s.err := rfl
@[simp] theorem accept_errcode (c : Byte) (s : State) : (accept c s).errcode = s.errcode := rfl
@[simp] theorem accept_pend (c : Byte) (s : State) : (accept c s).pend = some c := rfl
@[simp] theorem accept_drawn (c : Byte) (s : State) : (accept c s).drawn = s.drawn := rfl
@[simp] theorem accept_program (c : Byte) (s : State) : (accept c s).program = s.program := rfl
@[simp] theorem accept_hpc (c : Byte) (s : State) : (accept c s).hpc = s.hpc := rfl
@[simp] theorem accept_vars (c : Byte) (s : State) : (accept c s).vars = s.vars := rfl
@[simp] theorem accept_sched (c : Byte) (s : State) : (accept c s).sched = s.sched := rfl
@[simp] theorem accept_gap (c : Byte) (s : State) : (accept c s).gap = s.gap := rfl
@[simp] theorem accept_gaps (c : Byte) (s : State) : (accept c s).gaps = s.gaps := rfl

/-! retire: the end of a completion (R104). -/

@[simp] theorem retire_data (s : State) : (retire s).data = s.data := rfl
@[simp] theorem retire_key (s : State) : (retire s).key = s.key := rfl
@[simp] theorem retire_pwd (s : State) : (retire s).pwd = s.pwd := rfl
@[simp] theorem retire_rsize (s : State) : (retire s).rsize = s.rsize := rfl
@[simp] theorem retire_pwlen (s : State) : (retire s).pwlen = s.pwlen := rfl
@[simp] theorem retire_busy (s : State) : (retire s).busy = false := rfl
@[simp] theorem retire_err (s : State) : (retire s).err = s.err := rfl
@[simp] theorem retire_errcode (s : State) : (retire s).errcode = s.errcode := rfl
@[simp] theorem retire_pend (s : State) : (retire s).pend = none := rfl
@[simp] theorem retire_drawn (s : State) : (retire s).drawn = s.drawn := rfl
@[simp] theorem retire_program (s : State) : (retire s).program = s.program := rfl
@[simp] theorem retire_hpc (s : State) : (retire s).hpc = s.hpc := rfl
@[simp] theorem retire_vars (s : State) : (retire s).vars = s.vars := rfl
@[simp] theorem retire_sched (s : State) : (retire s).sched = s.sched := rfl
@[simp] theorem retire_gap (s : State) : (retire s).gap = s.gap := rfl
@[simp] theorem retire_gaps (s : State) : (retire s).gaps = s.gaps := rfl

/-! setDataBytes: ENC and DEC writing DATA in place. -/

@[simp] theorem setDataBytes_data (B : Block) (s : State) : (setDataBytes B s).data = { bytes := B, wr := s.data.wr } := rfl
@[simp] theorem setDataBytes_key (B : Block) (s : State) : (setDataBytes B s).key = s.key := rfl
@[simp] theorem setDataBytes_pwd (B : Block) (s : State) : (setDataBytes B s).pwd = s.pwd := rfl
@[simp] theorem setDataBytes_rsize (B : Block) (s : State) : (setDataBytes B s).rsize = s.rsize := rfl
@[simp] theorem setDataBytes_pwlen (B : Block) (s : State) : (setDataBytes B s).pwlen = s.pwlen := rfl
@[simp] theorem setDataBytes_busy (B : Block) (s : State) : (setDataBytes B s).busy = s.busy := rfl
@[simp] theorem setDataBytes_err (B : Block) (s : State) : (setDataBytes B s).err = s.err := rfl
@[simp] theorem setDataBytes_errcode (B : Block) (s : State) : (setDataBytes B s).errcode = s.errcode := rfl
@[simp] theorem setDataBytes_pend (B : Block) (s : State) : (setDataBytes B s).pend = s.pend := rfl
@[simp] theorem setDataBytes_drawn (B : Block) (s : State) : (setDataBytes B s).drawn = s.drawn := rfl
@[simp] theorem setDataBytes_program (B : Block) (s : State) : (setDataBytes B s).program = s.program := rfl
@[simp] theorem setDataBytes_hpc (B : Block) (s : State) : (setDataBytes B s).hpc = s.hpc := rfl
@[simp] theorem setDataBytes_vars (B : Block) (s : State) : (setDataBytes B s).vars = s.vars := rfl
@[simp] theorem setDataBytes_sched (B : Block) (s : State) : (setDataBytes B s).sched = s.sched := rfl
@[simp] theorem setDataBytes_gap (B : Block) (s : State) : (setDataBytes B s).gap = s.gap := rfl
@[simp] theorem setDataBytes_gaps (B : Block) (s : State) : (setDataBytes B s).gaps = s.gaps := rfl

/-! loadData: a write of all of DATA. -/

@[simp] theorem loadData_data (B : Block) (s : State) : (loadData B s).data = RegArray.full B := rfl
@[simp] theorem loadData_key (B : Block) (s : State) : (loadData B s).key = s.key := rfl
@[simp] theorem loadData_pwd (B : Block) (s : State) : (loadData B s).pwd = s.pwd := rfl
@[simp] theorem loadData_rsize (B : Block) (s : State) : (loadData B s).rsize = 16 := rfl
@[simp] theorem loadData_pwlen (B : Block) (s : State) : (loadData B s).pwlen = s.pwlen := rfl
@[simp] theorem loadData_busy (B : Block) (s : State) : (loadData B s).busy = s.busy := rfl
@[simp] theorem loadData_err (B : Block) (s : State) : (loadData B s).err = s.err := rfl
@[simp] theorem loadData_errcode (B : Block) (s : State) : (loadData B s).errcode = s.errcode := rfl
@[simp] theorem loadData_pend (B : Block) (s : State) : (loadData B s).pend = s.pend := rfl
@[simp] theorem loadData_drawn (B : Block) (s : State) : (loadData B s).drawn = s.drawn := rfl
@[simp] theorem loadData_program (B : Block) (s : State) : (loadData B s).program = s.program := rfl
@[simp] theorem loadData_hpc (B : Block) (s : State) : (loadData B s).hpc = s.hpc := rfl
@[simp] theorem loadData_vars (B : Block) (s : State) : (loadData B s).vars = s.vars := rfl
@[simp] theorem loadData_sched (B : Block) (s : State) : (loadData B s).sched = s.sched := rfl
@[simp] theorem loadData_gap (B : Block) (s : State) : (loadData B s).gap = s.gap := rfl
@[simp] theorem loadData_gaps (B : Block) (s : State) : (loadData B s).gaps = s.gaps := rfl

/-! loadKey: a write of all of KEY. -/

@[simp] theorem loadKey_data (B : Block) (s : State) : (loadKey B s).data = s.data := rfl
@[simp] theorem loadKey_key (B : Block) (s : State) : (loadKey B s).key = RegArray.full B := rfl
@[simp] theorem loadKey_pwd (B : Block) (s : State) : (loadKey B s).pwd = s.pwd := rfl
@[simp] theorem loadKey_rsize (B : Block) (s : State) : (loadKey B s).rsize = s.rsize := rfl
@[simp] theorem loadKey_pwlen (B : Block) (s : State) : (loadKey B s).pwlen = s.pwlen := rfl
@[simp] theorem loadKey_busy (B : Block) (s : State) : (loadKey B s).busy = s.busy := rfl
@[simp] theorem loadKey_err (B : Block) (s : State) : (loadKey B s).err = s.err := rfl
@[simp] theorem loadKey_errcode (B : Block) (s : State) : (loadKey B s).errcode = s.errcode := rfl
@[simp] theorem loadKey_pend (B : Block) (s : State) : (loadKey B s).pend = s.pend := rfl
@[simp] theorem loadKey_drawn (B : Block) (s : State) : (loadKey B s).drawn = s.drawn := rfl
@[simp] theorem loadKey_program (B : Block) (s : State) : (loadKey B s).program = s.program := rfl
@[simp] theorem loadKey_hpc (B : Block) (s : State) : (loadKey B s).hpc = s.hpc := rfl
@[simp] theorem loadKey_vars (B : Block) (s : State) : (loadKey B s).vars = s.vars := rfl
@[simp] theorem loadKey_sched (B : Block) (s : State) : (loadKey B s).sched = s.sched := rfl
@[simp] theorem loadKey_gap (B : Block) (s : State) : (loadKey B s).gap = s.gap := rfl
@[simp] theorem loadKey_gaps (B : Block) (s : State) : (loadKey B s).gaps = s.gaps := rfl

/-! takeDraws: taking draws. -/

@[simp] theorem takeDraws_data (n : Nat) (s : State) : (takeDraws n s).data = s.data := rfl
@[simp] theorem takeDraws_key (n : Nat) (s : State) : (takeDraws n s).key = s.key := rfl
@[simp] theorem takeDraws_pwd (n : Nat) (s : State) : (takeDraws n s).pwd = s.pwd := rfl
@[simp] theorem takeDraws_rsize (n : Nat) (s : State) : (takeDraws n s).rsize = s.rsize := rfl
@[simp] theorem takeDraws_pwlen (n : Nat) (s : State) : (takeDraws n s).pwlen = s.pwlen := rfl
@[simp] theorem takeDraws_busy (n : Nat) (s : State) : (takeDraws n s).busy = s.busy := rfl
@[simp] theorem takeDraws_err (n : Nat) (s : State) : (takeDraws n s).err = s.err := rfl
@[simp] theorem takeDraws_errcode (n : Nat) (s : State) : (takeDraws n s).errcode = s.errcode := rfl
@[simp] theorem takeDraws_pend (n : Nat) (s : State) : (takeDraws n s).pend = s.pend := rfl
@[simp] theorem takeDraws_drawn (n : Nat) (s : State) : (takeDraws n s).drawn = s.drawn + n := rfl
@[simp] theorem takeDraws_program (n : Nat) (s : State) : (takeDraws n s).program = s.program := rfl
@[simp] theorem takeDraws_hpc (n : Nat) (s : State) : (takeDraws n s).hpc = s.hpc := rfl
@[simp] theorem takeDraws_vars (n : Nat) (s : State) : (takeDraws n s).vars = s.vars := rfl
@[simp] theorem takeDraws_sched (n : Nat) (s : State) : (takeDraws n s).sched = s.sched := rfl
@[simp] theorem takeDraws_gap (n : Nat) (s : State) : (takeDraws n s).gap = s.gap := rfl
@[simp] theorem takeDraws_gaps (n : Nat) (s : State) : (takeDraws n s).gaps = s.gaps := rfl

/-! coreReset: the reset event (R200). -/

@[simp] theorem coreReset_data (s : State) : (coreReset s).data = RegArray.reset := rfl
@[simp] theorem coreReset_key (s : State) : (coreReset s).key = RegArray.reset := rfl
@[simp] theorem coreReset_pwd (s : State) : (coreReset s).pwd = RegArray.reset := rfl
@[simp] theorem coreReset_rsize (s : State) : (coreReset s).rsize = 16 := rfl
@[simp] theorem coreReset_pwlen (s : State) : (coreReset s).pwlen = 0 := rfl
@[simp] theorem coreReset_busy (s : State) : (coreReset s).busy = false := rfl
@[simp] theorem coreReset_err (s : State) : (coreReset s).err = false := rfl
@[simp] theorem coreReset_errcode (s : State) : (coreReset s).errcode = .noError := rfl
@[simp] theorem coreReset_pend (s : State) : (coreReset s).pend = none := rfl
@[simp] theorem coreReset_drawn (s : State) : (coreReset s).drawn = s.drawn := rfl
@[simp] theorem coreReset_program (s : State) : (coreReset s).program = s.program := rfl
@[simp] theorem coreReset_hpc (s : State) : (coreReset s).hpc = s.hpc := rfl
@[simp] theorem coreReset_vars (s : State) : (coreReset s).vars = s.vars := rfl
@[simp] theorem coreReset_sched (s : State) : (coreReset s).sched = s.sched := rfl
@[simp] theorem coreReset_gap (s : State) : (coreReset s).gap = s.gap := rfl
@[simp] theorem coreReset_gaps (s : State) : (coreReset s).gaps = s.gaps := rfl

/-! advanceHost: the host's next operation. -/

@[simp] theorem advanceHost_data (s : State) : (advanceHost s).data = s.data := rfl
@[simp] theorem advanceHost_key (s : State) : (advanceHost s).key = s.key := rfl
@[simp] theorem advanceHost_pwd (s : State) : (advanceHost s).pwd = s.pwd := rfl
@[simp] theorem advanceHost_rsize (s : State) : (advanceHost s).rsize = s.rsize := rfl
@[simp] theorem advanceHost_pwlen (s : State) : (advanceHost s).pwlen = s.pwlen := rfl
@[simp] theorem advanceHost_busy (s : State) : (advanceHost s).busy = s.busy := rfl
@[simp] theorem advanceHost_err (s : State) : (advanceHost s).err = s.err := rfl
@[simp] theorem advanceHost_errcode (s : State) : (advanceHost s).errcode = s.errcode := rfl
@[simp] theorem advanceHost_pend (s : State) : (advanceHost s).pend = s.pend := rfl
@[simp] theorem advanceHost_drawn (s : State) : (advanceHost s).drawn = s.drawn := rfl
@[simp] theorem advanceHost_program (s : State) : (advanceHost s).program = s.program := rfl
@[simp] theorem advanceHost_hpc (s : State) : (advanceHost s).hpc = s.hpc + 1 := rfl
@[simp] theorem advanceHost_vars (s : State) : (advanceHost s).vars = s.vars := rfl
@[simp] theorem advanceHost_sched (s : State) : (advanceHost s).sched = s.sched := rfl
@[simp] theorem advanceHost_gap (s : State) : (advanceHost s).gap = s.gap := rfl
@[simp] theorem advanceHost_gaps (s : State) : (advanceHost s).gaps = s.gaps := rfl

/-! jumpHost: a taken host branch. -/

@[simp] theorem jumpHost_data (target : Nat) (s : State) : (jumpHost target s).data = s.data := rfl
@[simp] theorem jumpHost_key (target : Nat) (s : State) : (jumpHost target s).key = s.key := rfl
@[simp] theorem jumpHost_pwd (target : Nat) (s : State) : (jumpHost target s).pwd = s.pwd := rfl
@[simp] theorem jumpHost_rsize (target : Nat) (s : State) : (jumpHost target s).rsize = s.rsize := rfl
@[simp] theorem jumpHost_pwlen (target : Nat) (s : State) : (jumpHost target s).pwlen = s.pwlen := rfl
@[simp] theorem jumpHost_busy (target : Nat) (s : State) : (jumpHost target s).busy = s.busy := rfl
@[simp] theorem jumpHost_err (target : Nat) (s : State) : (jumpHost target s).err = s.err := rfl
@[simp] theorem jumpHost_errcode (target : Nat) (s : State) : (jumpHost target s).errcode = s.errcode := rfl
@[simp] theorem jumpHost_pend (target : Nat) (s : State) : (jumpHost target s).pend = s.pend := rfl
@[simp] theorem jumpHost_drawn (target : Nat) (s : State) : (jumpHost target s).drawn = s.drawn := rfl
@[simp] theorem jumpHost_program (target : Nat) (s : State) : (jumpHost target s).program = s.program := rfl
@[simp] theorem jumpHost_hpc (target : Nat) (s : State) : (jumpHost target s).hpc = target := rfl
@[simp] theorem jumpHost_vars (target : Nat) (s : State) : (jumpHost target s).vars = s.vars := rfl
@[simp] theorem jumpHost_sched (target : Nat) (s : State) : (jumpHost target s).sched = s.sched := rfl
@[simp] theorem jumpHost_gap (target : Nat) (s : State) : (jumpHost target s).gap = s.gap := rfl
@[simp] theorem jumpHost_gaps (target : Nat) (s : State) : (jumpHost target s).gaps = s.gaps := rfl

/-! setVar: a host variable. -/

@[simp] theorem setVar_data (x : Nat) (v : Byte) (s : State) : (setVar x v s).data = s.data := rfl
@[simp] theorem setVar_key (x : Nat) (v : Byte) (s : State) : (setVar x v s).key = s.key := rfl
@[simp] theorem setVar_pwd (x : Nat) (v : Byte) (s : State) : (setVar x v s).pwd = s.pwd := rfl
@[simp] theorem setVar_rsize (x : Nat) (v : Byte) (s : State) : (setVar x v s).rsize = s.rsize := rfl
@[simp] theorem setVar_pwlen (x : Nat) (v : Byte) (s : State) : (setVar x v s).pwlen = s.pwlen := rfl
@[simp] theorem setVar_busy (x : Nat) (v : Byte) (s : State) : (setVar x v s).busy = s.busy := rfl
@[simp] theorem setVar_err (x : Nat) (v : Byte) (s : State) : (setVar x v s).err = s.err := rfl
@[simp] theorem setVar_errcode (x : Nat) (v : Byte) (s : State) : (setVar x v s).errcode = s.errcode := rfl
@[simp] theorem setVar_pend (x : Nat) (v : Byte) (s : State) : (setVar x v s).pend = s.pend := rfl
@[simp] theorem setVar_drawn (x : Nat) (v : Byte) (s : State) : (setVar x v s).drawn = s.drawn := rfl
@[simp] theorem setVar_program (x : Nat) (v : Byte) (s : State) : (setVar x v s).program = s.program := rfl
@[simp] theorem setVar_hpc (x : Nat) (v : Byte) (s : State) : (setVar x v s).hpc = s.hpc := rfl
@[simp] theorem setVar_vars (x : Nat) (v : Byte) (s : State) : (setVar x v s).vars = Vars.set x v s.vars := rfl
@[simp] theorem setVar_sched (x : Nat) (v : Byte) (s : State) : (setVar x v s).sched = s.sched := rfl
@[simp] theorem setVar_gap (x : Nat) (v : Byte) (s : State) : (setVar x v s).gap = s.gap := rfl
@[simp] theorem setVar_gaps (x : Nat) (v : Byte) (s : State) : (setVar x v s).gaps = s.gaps := rfl

/-! dropTurn: a turn used up. -/

@[simp] theorem dropTurn_data (s : State) : (dropTurn s).data = s.data := rfl
@[simp] theorem dropTurn_key (s : State) : (dropTurn s).key = s.key := rfl
@[simp] theorem dropTurn_pwd (s : State) : (dropTurn s).pwd = s.pwd := rfl
@[simp] theorem dropTurn_rsize (s : State) : (dropTurn s).rsize = s.rsize := rfl
@[simp] theorem dropTurn_pwlen (s : State) : (dropTurn s).pwlen = s.pwlen := rfl
@[simp] theorem dropTurn_busy (s : State) : (dropTurn s).busy = s.busy := rfl
@[simp] theorem dropTurn_err (s : State) : (dropTurn s).err = s.err := rfl
@[simp] theorem dropTurn_errcode (s : State) : (dropTurn s).errcode = s.errcode := rfl
@[simp] theorem dropTurn_pend (s : State) : (dropTurn s).pend = s.pend := rfl
@[simp] theorem dropTurn_drawn (s : State) : (dropTurn s).drawn = s.drawn := rfl
@[simp] theorem dropTurn_program (s : State) : (dropTurn s).program = s.program := rfl
@[simp] theorem dropTurn_hpc (s : State) : (dropTurn s).hpc = s.hpc := rfl
@[simp] theorem dropTurn_vars (s : State) : (dropTurn s).vars = s.vars := rfl
@[simp] theorem dropTurn_sched (s : State) : (dropTurn s).sched = s.sched.tail := rfl
@[simp] theorem dropTurn_gap (s : State) : (dropTurn s).gap = (passGap s).1 := rfl
@[simp] theorem dropTurn_gaps (s : State) : (dropTurn s).gaps = (passGap s).2 := rfl

/-! Register arrays: one byte written (R55), and all 16 (R130, R150, R154, R157, R159). -/

@[simp] theorem RegArray.write_bytes (a : RegArray) (i : Fin 16) (v : Byte) :
    (a.write i v).bytes = a.bytes.set i v := rfl
@[simp] theorem RegArray.write_wr (a : RegArray) (i : Fin 16) (v : Byte) :
    (a.write i v).wr = a.wr.set i true := rfl
@[simp] theorem RegArray.full_bytes (B : Block) : (RegArray.full B).bytes = B := rfl
@[simp] theorem RegArray.full_wr (B : Block) (i : Fin 16) : (RegArray.full B).wr[i] = true := by
  simp [RegArray.full]

/-! WR entries by place (R34). -/

@[simp] theorem written_data (s : State) (i : Fin 16) : s.written (.data i) = s.data.wr[i] := rfl
@[simp] theorem written_key (s : State) (i : Fin 16) : s.written (.key i) = s.key.wr[i] := rfl
@[simp] theorem written_pwd (s : State) (i : Fin 16) : s.written (.pwd i) = s.pwd.wr[i] := rfl

end Sys2Proof.Machine
end

