-- ==== Sys2Proof/Laws/Transform.lean ====
section
/-! SUPPORT. Byte by byte: what each function of the block codec and of password encoding does to a block. -/

namespace Sys2Proof.Machine

@[simp] theorem roundKey_get (K : Block) (r : Nat) {i : Nat} (hi : i < 16) :
    (roundKey K r)[i] = K[i] ^^^ roundConst r := by
  simp [roundKey]

theorem keyMix_get (B K : Block) (r n : Nat) {i : Nat} (hi : i < 16) :
    (keyMix B K r n)[i] = if i < n then B[i] ^^^ (K[i] ^^^ roundConst r) else B[i] := by
  simp [keyMix, roundKey]

/-- A pair swap moves bytes 2j and 2j+1 and no other. -/
theorem swapPair_get (B : Block) (j : Fin 8) {i : Nat} (hi : i < 16) :
    (swapPair B j)[i] =
      if i = 2 * j.val then B[2 * j.val + 1]
      else if i = 2 * j.val + 1 then B[2 * j.val]
      else B[i] :=
  Vector.getElem_swap (by omega) (by omega) hi

@[simp] theorem encodeCopy_get (s : Block) (L : Nat) {i : Nat} (hi : i < 16) :
    (encodeCopy s L)[i] = if i < L then s[i] else 0 := by
  simp [encodeCopy]

/-- One turn of the fill writes byte L + k, from byte k, and no other byte. -/
theorem encodeFill_get (L : Nat) (out : Block) (k : Fin 16) {i : Nat} (hi : i < 16) :
    (encodeFill L out k)[i] = if i = L + k.val then out[k.val] else out[i] := by
  unfold encodeFill
  split
  · rename_i h
    rw [Vector.getElem_set (hi := h) hi]
    simp [eq_comm]
  · rename_i h
    have : i ≠ L + k.val := by omega
    simp [this]

theorem passwordChar_iff (b : Byte) : passwordChar b = true ↔ 0x21 ≤ b ∧ b ≤ 0x7E :=
  decide_eq_true_iff

theorem passwordChars_iff (s : Block) (L : Nat) :
    passwordChars s L = true ↔ ∀ k : Fin 16, k.val < L → 0x21 ≤ s[k] ∧ s[k] ≤ 0x7E := by
  simp only [passwordChars, List.all_eq_true, List.mem_finRange, true_implies, Bool.or_eq_true,
    decide_eq_true_eq, passwordChar_iff]
  exact forall_congr' fun k => by rw [← Nat.not_lt, imp_iff_not_or]

/-- Two blocks are equal when they agree at every index. -/
theorem Block.ext_fin {A B : Block} (h : ∀ i : Fin 16, A[i] = B[i]) : A = B :=
  Vector.ext fun i hi => h ⟨i, hi⟩

end Sys2Proof.Machine
end

