-- ==== Sys2Proof/Laws/Operands.lean ====
section
/-! SUPPORT. What the shared readers of operands can do: sequencing, the unwritten check, the window map, the issue
checks. -/

namespace Sys2Proof.Machine

section Sequencing
variable {α β : Type}

@[simp] theorem andThen_next (a : α) (f : α → Result β) : andThen (.next a) f = f a := rfl
@[simp] theorem andThen_fault (r : Fault) (f : α → Result β) : andThen (.fault r) f = .fault r := rfl
@[simp] theorem andThen_refused (r : Refusal) (f : α → Result β) : andThen (.refused r) f = .refused r := rfl

theorem andThen_eq_next {x : Result α} {f : α → Result β} {b : β} :
    andThen x f = .next b ↔ ∃ a, x = .next a ∧ f a = .next b := by
  cases x <;> simp

theorem andThen_eq_fault {x : Result α} {f : α → Result β} {r : Fault} :
    andThen x f = .fault r ↔ x = .fault r ∨ ∃ a, x = .next a ∧ f a = .fault r := by
  cases x <;> simp

theorem andThen_eq_refused {x : Result α} {f : α → Result β} {r : Refusal} :
    andThen x f = .refused r ↔ x = .refused r ∨ ∃ a, x = .next a ∧ f a = .refused r := by
  cases x <;> simp

/-- With every byte written, `require` goes on. -/
theorem require_of_written {ls : List Loc} {s : State} {k : Result α} (h : ∀ l ∈ ls, s.written l = true) :
    require ls s k = k := by
  have : ls.find? (fun l => !s.written l) = none := by simpa using h
  simp [require, this]

/-- With some byte unwritten, `require` faults at an unwritten byte of the list. -/
theorem require_of_unwritten {ls : List Loc} {s : State} {k : Result α} {l : Loc} (hl : l ∈ ls)
    (h : s.written l = false) :
    ∃ m ∈ ls, s.written m = false ∧ require ls s k = .fault (.unwritten m) := by
  cases hf : ls.find? (fun l => !s.written l) with
  | none => exact absurd (List.find?_eq_none.mp hf l hl) (by simp [h])
  | some m =>
    exact ⟨m, List.mem_of_find?_eq_some hf, by simpa using List.find?_some hf, by simp [require, hf]⟩

/-- Everything `require` can do. -/
theorem require_cases (ls : List Loc) (s : State) (k : Result α) :
    ((∀ l ∈ ls, s.written l = true) ∧ require ls s k = k) ∨
      ∃ m ∈ ls, s.written m = false ∧ require ls s k = .fault (.unwritten m) := by
  by_cases h : ∀ l ∈ ls, s.written l = true
  · exact .inl ⟨h, require_of_written h⟩
  · push Not at h
    obtain ⟨l, hl, hw⟩ := h
    exact .inr (require_of_unwritten hl (by simpa using hw))

theorem require_eq_next {ls : List Loc} {s : State} {k : Result α} {a : α} :
    require ls s k = .next a ↔ (∀ l ∈ ls, s.written l = true) ∧ k = .next a := by
  obtain ⟨h, e⟩ | ⟨m, hm, hw, e⟩ := require_cases ls s k <;> rw [e]
  · exact ⟨fun hk => ⟨h, hk⟩, fun hk => hk.2⟩
  · simp only [reduceCtorEq, false_iff, not_and]
    intro h
    exact absurd (h m hm) (by simp [hw])

/-- The unwritten check reads nothing but the WR entries. -/
theorem require_congr {ls : List Loc} {s t : State} {k : Result α} (h : ∀ l ∈ ls, s.written l = t.written l) :
    require ls s k = require ls t k := by
  have : ls.find? (fun l => !s.written l) = ls.find? (fun l => !t.written l) :=
    List.find?_congr fun l hl => by simp [h l hl]
  simp [require, this]

end Sequencing

/-! Which places the operand lists name. -/

@[simp] theorem mem_indicesBelow {n : Nat} {i : Fin 16} : i ∈ indicesBelow n ↔ i.val < n := by
  simp [indicesBelow]

theorem mem_codecLocs {n : Nat} {l : Loc} :
    l ∈ codecLocs n ↔ ∃ i : Fin 16, i.val < n ∧ (l = .data i ∨ l = .key i) := by
  simp [codecLocs]

theorem mem_dataLocs {l : Loc} : l ∈ dataLocs ↔ ∃ i : Fin 16, l = .data i := by
  simp [dataLocs, eq_comm]

theorem mem_keyLocs {l : Loc} : l ∈ keyLocs ↔ ∃ i : Fin 16, l = .key i := by
  simp [keyLocs, eq_comm]

theorem mem_pwdLocs {L : Nat} {l : Loc} : l ∈ pwdLocs L ↔ ∃ i : Fin 16, i.val < L ∧ l = .pwd i := by
  simp [pwdLocs, eq_comm]

theorem codecLocs_written {n : Nat} {s : State} :
    (∀ l ∈ codecLocs n, s.written l = true) ↔
      ∀ i : Fin 16, i.val < n → s.data.wr[i] = true ∧ s.key.wr[i] = true := by
  constructor
  · intro h i hi
    exact ⟨h _ (mem_codecLocs.mpr ⟨i, hi, .inl rfl⟩), h _ (mem_codecLocs.mpr ⟨i, hi, .inr rfl⟩)⟩
  · intro h l hl
    obtain ⟨i, hi, rfl | rfl⟩ := mem_codecLocs.mp hl
    · exact (h i hi).1
    · exact (h i hi).2

theorem dataLocs_written {s : State} :
    (∀ l ∈ dataLocs, s.written l = true) ↔ ∀ i : Fin 16, s.data.wr[i] = true := by
  simp only [mem_dataLocs, forall_exists_index, forall_eq_apply_imp_iff, written_data]

theorem keyLocs_written {s : State} :
    (∀ l ∈ keyLocs, s.written l = true) ↔ ∀ i : Fin 16, s.key.wr[i] = true := by
  simp only [mem_keyLocs, forall_exists_index, forall_eq_apply_imp_iff, written_key]

theorem pwdLocs_written {L : Nat} {s : State} :
    (∀ l ∈ pwdLocs L, s.written l = true) ↔ ∀ i : Fin 16, i.val < L → s.pwd.wr[i] = true := by
  constructor
  · intro h i hi
    exact h _ (mem_pwdLocs.mpr ⟨i, hi, rfl⟩)
  · intro h l hl
    obtain ⟨i, hi, rfl⟩ := mem_pwdLocs.mp hl
    exact h i hi

/-! The window map (R51). -/

/-- Every offset of the window belongs to one register, and the register sits at that offset. -/
theorem offset_ofOffset : ∀ off : Offset, (Reg.ofOffset off).offset = off := by decide

theorem ofOffset_data : ∀ i : Fin 16, Reg.ofOffset (BitVec.ofNat 6 i.val) = .data i := by decide
theorem ofOffset_key : ∀ i : Fin 16, Reg.ofOffset (BitVec.ofNat 6 (0x10 + i.val)) = .key i := by decide
theorem ofOffset_pwd : ∀ i : Fin 16, Reg.ofOffset (BitVec.ofNat 6 (0x20 + i.val)) = .pwd i := by decide
theorem ofOffset_reserved : ∀ i : Fin 11, Reg.ofOffset (BitVec.ofNat 6 (0x35 + i.val)) = .reserved i := by decide
@[simp] theorem ofOffset_rsize : Reg.ofOffset 0x30#6 = .rsize := rfl
@[simp] theorem ofOffset_pwlen : Reg.ofOffset 0x31#6 = .pwlen := rfl
@[simp] theorem ofOffset_cmd : Reg.ofOffset 0x32#6 = .cmd := rfl
@[simp] theorem ofOffset_status : Reg.ofOffset 0x33#6 = .status := rfl
@[simp] theorem ofOffset_errcode : Reg.ofOffset 0x34#6 = .errcode := rfl

theorem ofOffset_offset (r : Reg) : Reg.ofOffset r.offset = r := by
  cases r with
  | data i => exact ofOffset_data i
  | key i => exact ofOffset_key i
  | pwd i => exact ofOffset_pwd i
  | reserved i => exact ofOffset_reserved i
  | rsize | pwlen | cmd | status | errcode => rfl

/-! The issue checks (R102). -/

theorem checkPassword_eq_noError {s : State} :
    checkPassword s = .next .noError ↔
      PasswordLength s.pwlen.toNat ∧ (∀ i : Fin 16, i.val < s.pwlen.toNat → s.pwd.wr[i] = true) ∧
        passwordChars s.pwd.bytes s.pwlen.toNat = true := by
  unfold checkPassword
  split
  · rename_i h
    rw [require_eq_next, pwdLocs_written]
    refine ⟨fun ⟨hw, hc⟩ => ⟨h, hw, ?_⟩, fun ⟨_, hw, hc⟩ => ⟨hw, if_pos hc⟩⟩
    by_contra hn
    simp [hn] at hc
  · rename_i h
    simp [h]

theorem checkRealSize_eq_noError {s : State} : checkRealSize s = .next .noError ↔ RealSize s.rsize.toNat := by
  by_cases h : RealSize s.rsize.toNat
  · simp only [checkRealSize, if_pos h, true_iff]; exact h
  · simp only [checkRealSize, if_neg h, Host.Outcome.next.injEq, reduceCtorEq, false_iff]; exact h

theorem checkFullBlock_eq_noError {s : State} : checkFullBlock s = .next .noError ↔ s.rsize.toNat = 16 := by
  by_cases h : s.rsize.toNat = 16 <;> simp [checkFullBlock, h]

/-- An issue check reads PWD, RSIZE and PWLEN, and nothing else. -/
theorem issueCheck_congr (i : Instr) {s t : State} (hp : s.pwd = t.pwd) (hr : s.rsize = t.rsize)
    (hl : s.pwlen = t.pwlen) : issueCheck i s = issueCheck i t := by
  have hw : ∀ L, ∀ l ∈ pwdLocs L, s.written l = t.written l := by
    intro L l h
    obtain ⟨i, -, rfl⟩ := mem_pwdLocs.mp h
    simp [hp]
  cases i <;> simp only [issueCheck, checkRealSize, checkFullBlock, checkPassword, hr, hl]
  rw [require_congr (hw _), hp]

/-- An issue check finds an unwritten password byte, or answers; it never refuses. -/
theorem issueCheck_cases (i : Instr) (s : State) :
    (∃ e, issueCheck i s = .next e) ∨
      ∃ k : Fin 16, k.val < s.pwlen.toNat ∧ s.pwd.wr[k] = false ∧ issueCheck i s = .fault (.unwritten (.pwd k)) := by
  cases i with
  | nop | gen | movkd | rkey _ => exact .inl ⟨_, rfl⟩
  | enc | dec =>
    refine .inl ?_
    by_cases h : RealSize s.rsize.toNat
    · exact ⟨.noError, by simp only [issueCheck, checkRealSize, if_pos h]⟩
    · exact ⟨.invalidRsize, by simp only [issueCheck, checkRealSize, if_neg h]⟩
  | movdk =>
    refine .inl ?_
    by_cases h : s.rsize.toNat = 16
    · exact ⟨.noError, by simp only [issueCheck, checkFullBlock, if_pos h]⟩
    · exact ⟨.invalidRsize, by simp only [issueCheck, checkFullBlock, if_neg h]⟩
  | fromPw =>
    simp only [issueCheck, checkPassword]
    split
    · obtain ⟨-, e⟩ | ⟨m, hm, hw, e⟩ := require_cases (pwdLocs s.pwlen.toNat) s
        (if passwordChars s.pwd.bytes s.pwlen.toNat then Host.Outcome.next ErrCode.noError
          else .next .invalidPassword)
      · rw [e]; refine .inl ?_; split <;> exact ⟨_, rfl⟩
      · obtain ⟨k, hk, rfl⟩ := mem_pwdLocs.mp hm
        exact .inr ⟨k, hk, hw, e⟩
    · exact .inl ⟨_, rfl⟩

end Sys2Proof.Machine
end

