-- ==== Sys2Proof/Laws/Ops.lean ====
section
/-! SUPPORT. One lemma per shared operation that says everything it can do: issue, the bus accesses, and each command's
completion. -/

namespace Sys2Proof.Machine

/-- Everything `issue` can answer as a next state (R100): the illegal byte, a failed check, an acceptance. -/
theorem issue_eq_next {c : Byte} {s t : State} :
    issue c s = .next t ↔
      (decode c = .illegal ∧ t = raiseError .illegalCommand s) ∨
      (∃ i, decode c = .command i ∧ issueCheck i s = .next .noError ∧ t = accept c s) ∨
      (∃ i e, decode c = .command i ∧ issueCheck i s = .next e ∧ e ≠ .noError ∧ t = raiseError e s) := by
  unfold issue
  cases hd : decode c with
  | illegal => simp [eq_comm]
  | command i =>
    simp only [andThen_eq_next, reduceCtorEq, false_and, false_or, Decoded.command.injEq, exists_and_left,
      exists_eq_left']
    constructor
    · rintro ⟨e, he, h⟩
      by_cases hn : e = .noError
      · subst hn; simp at h; exact .inl ⟨he, h.symm⟩
      · rw [if_neg hn] at h
        exact .inr ⟨e, he, hn, (Host.Outcome.next.inj h).symm⟩
    · rintro (⟨he, rfl⟩ | ⟨e, he, hn, rfl⟩)
      · exact ⟨_, he, by simp⟩
      · exact ⟨e, he, by simp [hn]⟩

/-- `issue` stops only at an unwritten password byte, and never refuses. -/
theorem issue_eq_fault {c : Byte} {s : State} {f : Fault} (h : issue c s = .fault f) :
    decode c = .command .fromPw ∧ ∃ k : Fin 16, s.pwd.wr[k] = false ∧ f = .unwritten (.pwd k) := by
  unfold issue at h
  cases hd : decode c with
  | illegal => simp [hd] at h
  | command i =>
    simp only [hd, andThen_eq_fault] at h
    obtain h | ⟨e, -, h⟩ := h
    · obtain ⟨e, he⟩ | ⟨k, -, hk, he⟩ := issueCheck_cases i s
      · simp [he] at h
      · have hi : i = .fromPw := by
          cases i with
          | fromPw => rfl
          | nop | gen | movkd | rkey _ => simp [issueCheck, checkNone] at he
          | enc | dec => simp only [issueCheck, checkRealSize] at he; split at he <;> simp at he
          | movdk => simp only [issueCheck, checkFullBlock] at he; split at he <;> simp at he
        rw [he] at h
        exact ⟨by rw [hi], k, hk, (Host.Outcome.fault.inj h).symm⟩
    · split at h <;> simp at h

theorem issue_ne_refused {c : Byte} {s : State} {r : Refusal} : issue c s ≠ .refused r := by
  intro h
  unfold issue at h
  cases hd : decode c with
  | illegal => simp [hd] at h
  | command i =>
    simp only [hd, andThen_eq_refused] at h
    obtain h | ⟨e, -, h⟩ := h
    · obtain ⟨e, he⟩ | ⟨k, -, -, he⟩ := issueCheck_cases i s <;> simp [he] at h
    · split at h <;> simp at h

/-- Everything `writeReg` can answer as a next state (R55). -/
theorem writeReg_eq_next {r : Reg} {v : Byte} {s t : State} (h : writeReg r v s = .next t) :
    (∃ i, r = .data i ∧ t = { s with data := s.data.write i v }) ∨
    (∃ i, r = .key i ∧ t = { s with key := s.key.write i v }) ∨
    (∃ i, r = .pwd i ∧ t = { s with pwd := s.pwd.write i v }) ∨
    (r = .rsize ∧ t = { s with rsize := v.setWidth 5 }) ∨
    (r = .pwlen ∧ t = { s with pwlen := v.setWidth 5 }) ∨
    (r = .cmd ∧ issue v s = .next t) ∨
    (r = .status ∧ v.getLsbD 1 = true ∧ t = clearError s) ∨
    t = s := by
  cases r with
  | data i => exact .inl ⟨i, rfl, (Host.Outcome.next.inj h).symm⟩
  | key i => exact .inr (.inl ⟨i, rfl, (Host.Outcome.next.inj h).symm⟩)
  | pwd i => exact .inr (.inr (.inl ⟨i, rfl, (Host.Outcome.next.inj h).symm⟩))
  | rsize => exact .inr (.inr (.inr (.inl ⟨rfl, (Host.Outcome.next.inj h).symm⟩)))
  | pwlen => exact .inr (.inr (.inr (.inr (.inl ⟨rfl, (Host.Outcome.next.inj h).symm⟩))))
  | cmd => exact .inr (.inr (.inr (.inr (.inr (.inl ⟨rfl, h⟩)))))
  | status =>
    simp only [writeReg] at h
    split at h
    · exact .inr (.inr (.inr (.inr (.inr (.inr (.inl ⟨rfl, ‹_›, (Host.Outcome.next.inj h).symm⟩))))))
    · exact .inr (.inr (.inr (.inr (.inr (.inr (.inr (Host.Outcome.next.inj h).symm))))))
  | errcode | reserved _ => exact .inr (.inr (.inr (.inr (.inr (.inr (.inr (Host.Outcome.next.inj h).symm))))))

/-- Everything a bus write can answer as a next state (R53, R55, R57). -/
theorem memWrite_eq_next {off : Offset} {w : Nat} {v : Byte} {s t : State} :
    memWrite off w v s = .next t ↔
      w = 1 ∧ ((s.busy = true ∧ off.toNat ≤ 0x32 ∧ t = raiseError .busyWrite s) ∨
        (¬(s.busy = true ∧ off.toNat ≤ 0x32) ∧ writeReg (Reg.ofOffset off) v s = .next t)) := by
  unfold memWrite
  by_cases hw : w = 1
  · by_cases hb : s.busy = true ∧ off.toNat ≤ 0x32
    · simp [hw, hb.1, hb.2, eq_comm]
    · rw [if_neg (by simp [hw]), if_neg hb]
      exact ⟨fun h => ⟨hw, .inr ⟨hb, h⟩⟩, fun h => h.2.elim (fun h' => absurd ⟨h'.1, h'.2.1⟩ hb) (·.2)⟩
  · simp [hw]

/-- A bus read changes nothing but the count of draws, and that only while busy (R54, R57, R60). -/
theorem memRead_eq_next {off : Offset} {w : Nat} {b : Byte} {s t : State} :
    memRead off w s = .next (b, t) ↔
      w = 1 ∧ ((s.busy = true ∧ off.toNat ≤ 0x31 ∧ b = Config.draw s.drawn ∧ t = takeDraws 1 s) ∨
        (¬(s.busy = true ∧ off.toNat ≤ 0x31) ∧ readReg (Reg.ofOffset off) s = .next b ∧ t = s)) := by
  unfold memRead
  by_cases hw : w = 1
  · by_cases hb : s.busy = true ∧ off.toNat ≤ 0x31
    · simp [hw, hb.1, hb.2, eq_comm]
    · rw [if_neg (by simp [hw]), if_neg hb, andThen_eq_next]
      constructor
      · rintro ⟨a, ha, e⟩
        simp only [Host.Outcome.next.injEq, Prod.mk.injEq] at e
        obtain ⟨rfl, rfl⟩ := e
        exact ⟨hw, .inr ⟨hb, ha, rfl⟩⟩
      · rintro ⟨-, ⟨h1, h2, -⟩ | ⟨-, ha, rfl⟩⟩
        · exact absurd ⟨h1, h2⟩ hb
        · exact ⟨b, ha, rfl⟩
  · simp [hw]

/-- Everything a register read can do: a byte, or the fault of that very byte unwritten (R54). -/
theorem readReg_cases (r : Reg) (s : State) :
    (∃ b, readReg r s = .next b) ∨ ∃ l, s.written l = false ∧ readReg r s = .fault (.unwritten l) := by
  cases r with
  | data i | key i | pwd i =>
    simp only [readReg]
    obtain ⟨-, e⟩ | ⟨m, -, hw, e⟩ := require_cases (α := Byte) _ s _
    · exact .inl ⟨_, e⟩
    · exact .inr ⟨m, hw, e⟩
  | rsize | pwlen | cmd | status | errcode | reserved _ => exact .inl ⟨_, rfl⟩

/-! The bus accesses, case by case (R54, R55, R57). -/

theorem memWrite_idle {s : State} (h : s.busy = false) (off : Offset) (v : Byte) :
    memWrite off 1 v s = writeReg (Reg.ofOffset off) v s := by
  simp [memWrite, h]

theorem memWrite_busy_low {s : State} (h : s.busy = true) {off : Offset} (ho : off.toNat ≤ 0x32) (v : Byte) :
    memWrite off 1 v s = .next (raiseError .busyWrite s) := by
  simp [memWrite, h, ho]

theorem memWrite_high {s : State} {off : Offset} (ho : 0x32 < off.toNat) (v : Byte) :
    memWrite off 1 v s = writeReg (Reg.ofOffset off) v s := by
  have : ¬(s.busy = true ∧ off.toNat ≤ 0x32) := fun h => absurd h.2 (by omega)
  simp only [memWrite, if_neg this, ne_eq, not_true_eq_false, if_false]

theorem memWrite_cmd {s : State} (h : s.busy = false) (c : Byte) : memWrite 0x32 1 c s = issue c s :=
  memWrite_idle h _ c

theorem memRead_idle {s : State} (h : s.busy = false) (off : Offset) :
    memRead off 1 s = andThen (readReg (Reg.ofOffset off) s) fun b => .next (b, s) := by
  simp [memRead, h]

theorem memRead_busy_low {s : State} (h : s.busy = true) {off : Offset} (ho : off.toNat ≤ 0x31) :
    memRead off 1 s = .next (Config.draw s.drawn, takeDraws 1 s) := by
  simp [memRead, h, ho]

theorem memRead_high {s : State} {off : Offset} (ho : 0x31 < off.toNat) :
    memRead off 1 s = andThen (readReg (Reg.ofOffset off) s) fun b => .next (b, s) := by
  have : ¬(s.busy = true ∧ off.toNat ≤ 0x31) := fun h => absurd h.2 (by omega)
  simp only [memRead, if_neg this, ne_eq, not_true_eq_false, if_false]

/-! Reading one array byte: the byte if it is written, else the fault of that byte (R54). -/

theorem readReg_data (i : Fin 16) (s : State) :
    readReg (.data i) s =
      if s.data.wr[i.val] = true then .next s.data.bytes[i.val] else .fault (.unwritten (.data i)) := by
  cases h : s.data.wr[i.val] <;> simp [readReg, require, List.find?, h]

theorem readReg_key (i : Fin 16) (s : State) :
    readReg (.key i) s =
      if s.key.wr[i.val] = true then .next s.key.bytes[i.val] else .fault (.unwritten (.key i)) := by
  cases h : s.key.wr[i.val] <;> simp [readReg, require, List.find?, h]

theorem readReg_pwd (i : Fin 16) (s : State) :
    readReg (.pwd i) s =
      if s.pwd.wr[i.val] = true then .next s.pwd.bytes[i.val] else .fault (.unwritten (.pwd i)) := by
  cases h : s.pwd.wr[i.val] <;> simp [readReg, require, List.find?, h]

/-! The completions (R104): exactly when each answers a next state, and which. -/

theorem completeCodec_eq_next {f : Block → Block → Nat → Block} {s t : State} :
    completeCodec f s = .next t ↔
      RealSize s.rsize.toNat ∧
      (∀ i : Fin 16, i.val < s.rsize.toNat → s.data.wr[i] = true ∧ s.key.wr[i] = true) ∧
      t = retire (setDataBytes (f s.data.bytes s.key.bytes s.rsize.toNat) s) := by
  unfold completeCodec
  split
  · rename_i h
    rw [require_eq_next, codecLocs_written, Host.Outcome.next.injEq]
    exact ⟨fun ⟨a, b⟩ => ⟨h, a, b.symm⟩, fun ⟨_, a, b⟩ => ⟨a, b.symm⟩⟩
  · rename_i h
    simp only [reduceCtorEq, false_iff]
    exact fun a => h a.1

theorem execNop_eq_next {s t : State} : execNop s = .next t ↔ t = retire s := by
  simp [execNop, eq_comm]

theorem execGen_eq_next {s t : State} :
    execGen s = .next t ↔ t = retire (loadData (drawBlock s.drawn) (takeDraws 16 s)) := by
  simp [execGen, eq_comm]

theorem execFromPw_eq_next {s t : State} :
    execFromPw s = .next t ↔
      PasswordLength s.pwlen.toNat ∧ (∀ i : Fin 16, i.val < s.pwlen.toNat → s.pwd.wr[i] = true) ∧
      t = retire (loadKey (encodePassword s.pwd.bytes s.pwlen.toNat) s) := by
  unfold execFromPw
  split
  · rename_i h
    rw [require_eq_next, pwdLocs_written, Host.Outcome.next.injEq]
    exact ⟨fun ⟨a, b⟩ => ⟨h, a, b.symm⟩, fun ⟨_, a, b⟩ => ⟨a, b.symm⟩⟩
  · rename_i h
    simp only [reduceCtorEq, false_iff]
    exact fun a => h a.1

theorem execMovdk_eq_next {s t : State} :
    execMovdk s = .next t ↔ (∀ i : Fin 16, s.data.wr[i] = true) ∧ t = retire (loadKey s.data.bytes s) := by
  unfold execMovdk
  rw [require_eq_next, dataLocs_written, Host.Outcome.next.injEq, eq_comm (b := t)]

theorem execMovkd_eq_next {s t : State} :
    execMovkd s = .next t ↔ (∀ i : Fin 16, s.key.wr[i] = true) ∧ t = retire (loadData s.key.bytes s) := by
  unfold execMovkd
  rw [require_eq_next, keyLocs_written, Host.Outcome.next.injEq, eq_comm (b := t)]

theorem execRkey_eq_next {r : BitVec 4} {s t : State} :
    execRkey r s = .next t ↔
      r.toNat < 15 ∧ (∀ i : Fin 16, s.key.wr[i] = true) ∧
      t = retire (loadData (roundKey s.key.bytes r.toNat) s) := by
  unfold execRkey
  split
  · rename_i h
    rw [require_eq_next, keyLocs_written, Host.Outcome.next.injEq]
    exact ⟨fun ⟨a, b⟩ => ⟨h, a, b.symm⟩, fun ⟨_, a, b⟩ => ⟨a, b.symm⟩⟩
  · rename_i h
    simp only [reduceCtorEq, false_iff]
    exact fun a => h a.1

/-- No completion refuses. -/
theorem exec_ne_refused {i : Instr} {s : State} {r : Refusal} : exec i s ≠ .refused r := by
  have hreq : ∀ (ls : List Loc) (u : State), require ls s (.next u) ≠ (.refused r : Result State) := by
    intro ls u h
    obtain ⟨-, e⟩ | ⟨m, -, -, e⟩ := require_cases ls s (Host.Outcome.next u : Result State) <;> simp [e] at h
  intro h
  cases i <;> simp only [exec, execNop, execEnc, execDec, execGen, execFromPw, execMovdk, execMovkd, execRkey,
    completeCodec] at h <;> (try split at h) <;> first | exact hreq _ _ h | simp at h

end Sys2Proof.Machine
end

