-- ==== Sys2Proof/Laws/PerInstr.lean ====
section
/-! SUPPORT. Statements made per instruction. -/

namespace Sys2Proof.Laws.MajorOpcode

/-- The major opcode of every command is 0x0, or 0x1 for RKEY (rule R80). -/
def Statement (i : Instr) : Prop := opField (encode i) = 0x0 ∨ (opField (encode i) = 0x1 ∧ ∃ r, i = .rkey r)

theorem nop : Statement .nop := .inl (by decide)
theorem enc : Statement .enc := .inl (by decide)
theorem dec : Statement .dec := .inl (by decide)
theorem gen : Statement .gen := .inl (by decide)
theorem fromPw : Statement .fromPw := .inl (by decide)
theorem movdk : Statement .movdk := .inl (by decide)
theorem movkd : Statement .movkd := .inl (by decide)
theorem rkey (r : BitVec 4) : Statement (.rkey r) := .inr ⟨by revert r; decide, r, rfl⟩

end Sys2Proof.Laws.MajorOpcode
end

