-- ==== Sys2Proof/Laws/Step.lean ====
section
/-! SUPPORT. Everything one step can do, turn by turn. -/

namespace Sys2Proof.Machine

/-! Whose turn it is, and what a turn used up leaves (log, entry 4). -/

theorem nextTurn_of_cons {s : State} {t : Turn} {rest : List Turn} (h : s.sched = t :: rest) : nextTurn s = t := by
  simp [nextTurn, h]

theorem nextTurn_of_nil {s : State} (h : s.sched = []) :
    nextTurn s = if s.pend = none then .host else if s.gap = 0 then .core else .host := by
  simp [nextTurn, h]

theorem passGap_of_cons {s : State} {t : Turn} {rest : List Turn} (h : s.sched = t :: rest) :
    passGap s = (s.gap, s.gaps) := by
  simp [passGap, h]

theorem passGap_of_nil {s : State} (h : s.sched = []) :
    passGap s = if s.gap = 0 then (Config.coreGap s.gaps, s.gaps + 1) else (s.gap - 1, s.gaps) := by
  simp [passGap, h]

/-- A reset turn is always a listed one. -/
theorem reset_mem_of_nextTurn {s : State} (h : nextTurn s = .reset) : .reset ∈ s.sched := by
  cases hs : s.sched with
  | nil => rw [nextTurn_of_nil hs] at h; split at h <;> [cases h; (split at h <;> cases h)]
  | cons t rest => rw [nextTurn_of_cons hs] at h; simp [h]

/-- While a command is pending, a host turn uses up one of the turns left before the core's. -/
theorem turnsLeft_lt_of_host {s : State} (hp : s.pend ≠ none) (h : nextTurn s = .host) :
    (dropTurn s).sched.length + (dropTurn s).gap < s.sched.length + s.gap := by
  cases hs : s.sched with
  | nil =>
    rw [nextTurn_of_nil hs, if_neg hp] at h
    have hg : s.gap ≠ 0 := by rintro hg; simp [hg] at h
    simp [passGap_of_nil hs, hs, hg]; omega
  | cons t rest => simp [passGap_of_cons hs, hs]

/-! One host operation, by kind (R85). -/

theorem hostOp_wr_eq_next {off : Offset} {w : Nat} {v : Byte} {s t : State} :
    hostOp (.wr off w v) s = .next t ↔ ∃ u, memWrite off w v s = .next u ∧ t = advanceHost u := by
  simp only [hostOp, andThen_eq_next, Host.Outcome.next.injEq]
  exact exists_congr fun u => and_congr_right fun _ => eq_comm

theorem hostOp_rd_eq_next {off : Offset} {w x : Nat} {s t : State} :
    hostOp (.rd off w x) s = .next t ↔
      ∃ b u, memRead off w s = .next (b, u) ∧ t = advanceHost (setVar x b u) := by
  simp only [hostOp, andThen_eq_next, Host.Outcome.next.injEq, Prod.exists]
  exact exists_congr fun b => exists_congr fun u => and_congr_right fun _ => eq_comm

theorem hostOp_bnz (x : Nat) (bit : Fin 8) (target : Nat) (s : State) :
    hostOp (.bnz x bit target) s =
      .next (if (Vars.get x s.vars).getLsbD bit.val then jumpHost target s else advanceHost s) := by
  simp only [hostOp]; split <;> rfl

theorem hostOp_halt (s : State) : hostOp .halt s = .next s := rfl

theorem coreTurn_eq_next {s t : State} :
    coreTurn s = .next t ↔
      (s.pend = none ∧ t = s) ∨ ∃ c i, s.pend = some c ∧ decode c = .command i ∧ exec i s = .next t := by
  unfold coreTurn
  cases hp : s.pend with
  | none => simp [eq_comm]
  | some c =>
    cases hd : decode c with
    | illegal => simp [hd]
    | command i => simp [hd]

/-- Everything a step can answer as a next state: an idle host, a host operation, a core turn, a reset. -/
theorem step_eq_next {s t : State} :
    step s = .next t ↔
      (nextTurn s = .host ∧ s.program[s.hpc]? = none ∧ t = dropTurn s) ∨
      (∃ o, hostNext o s ∧ hostOp o (dropTurn s) = .next t) ∨
      (nextTurn s = .core ∧ coreTurn (dropTurn s) = .next t) ∨
      (nextTurn s = .reset ∧ t = coreReset (dropTurn s)) := by
  unfold step hostNext
  cases hn : nextTurn s with
  | host =>
    simp only [hostTurn, dropTurn_program, dropTurn_hpc]
    cases ho : s.program[s.hpc]? <;> simp [eq_comm]
  | core => simp
  | reset => simp [eq_comm]

@[simp] theorem runSteps_zero (s : State) : runSteps 0 s = .next s := rfl
@[simp] theorem runSteps_succ (k : Nat) (s : State) : runSteps (k + 1) s = andThen (step s) (runSteps k) := rfl

/-- The model's runs are the runs of the host's interface. -/
theorem runSteps_eq_run (k : Nat) (s : State) : runSteps k s = core.run k s := by
  induction k generalizing s with
  | zero => rfl
  | succ k ih =>
    simp only [runSteps_succ, Host.Core.run]
    cases h : step s with
    | next t => simp only [andThen_next, ih, core, h]
    | fault r => simp only [andThen_fault, core, h]
    | refused r => simp only [andThen_refused, core, h]

end Sys2Proof.Machine
end

