-- ==== Sys2Proof/Machine/FileProtocol.lean ====
section
/-! DEFINITION. The host's use of the core for a file (rules R186 to R188): unit counts and the two host programs. They
describe host software, not the core (D36); they only say which accesses the host makes. -/

namespace Sys2Proof.Machine

/-- Full blocks of a plaintext of size S (rule R186). -/
def fullBlocks (S : Nat) : Nat := S / Config.blockBytes

/-- Size of the trailing partial block (rule R186). -/
def partialSize (S : Nat) : Nat := S % Config.blockBytes

/-- Total units (rule R186). -/
def totalUnits (S : Nat) : Nat := fullBlocks S + if partialSize S > 0 then 1 else 0

/-- Size of the encrypted file (rule R186). -/
def encryptedSize (S : Nat) : Nat := Config.blockBytes + S

/-- The bytes of unit j of a byte sequence: 16 of them, or the partial rest. -/
def unitBytes (bytes : List Byte) (j : Nat) : List Byte := (bytes.drop (Config.blockBytes * j)).take Config.blockBytes

/-- Step 1 of rules R187 and R188: the password key into KEY. Variable 0 is the poll's. -/
def passwordLines (pw : List Byte) : List AsmLine :=
  [.wrblk .pwd pw, .wr .pwlen (BitVec.ofNat 8 pw.length), .run .fromPw 0]

/-- Steps 5 and 6 of rule R187 for one unit under `i` (ENC, or DEC in rule R188): output byte k goes to variable 1 + k,
the first output byte of the unit being `out`. -/
def unitLines (i : Instr) (bs : List Byte) (out : Nat) : List AsmLine :=
  [.wr .rsize (BitVec.ofNat 8 bs.length), .wrblk .data bs, .run i 0, .rdblk .data bs.length (1 + out)]

/-- The units of a byte sequence in order, output from byte `out` on. -/
def unitsLines (i : Instr) (bytes : List Byte) (out : Nat) : List AsmLine :=
  (List.range (totalUnits bytes.length)).flatMap fun j => unitLines i (unitBytes bytes j) (out + Config.blockBytes * j)

/-- The encrypt-file protocol (rule R187; C2): password key, GEN, ENC, read, DEC, MOVDK, then the data units. -/
def encryptFile (pw plain : List Byte) : List AsmLine :=
  passwordLines pw ++ [.run .gen 0, .run .enc 0, .rdblk .data Config.blockBytes 1, .run .dec 0, .run .movdk 0]
    ++ unitsLines .enc plain Config.blockBytes ++ [.halt]

/-- The decrypt-file protocol (rule R188): password key, the encrypted key, DEC, MOVDK, then the data units. -/
def decryptFile (pw file : List Byte) : List AsmLine :=
  passwordLines pw ++ [.wr .rsize 0x10, .wrblk .data (file.take Config.blockBytes), .run .dec 0, .run .movdk 0]
    ++ unitsLines .dec (file.drop Config.blockBytes) 0 ++ [.halt]

end Sys2Proof.Machine
end

