-- ==== Sys2Proof/Tests/Slice0.lean ====
section
/-! SUPPORT. The model's own tests. Expected results are those of 95_test_vectors.md (the vector is named at each test) or
worked by hand from the rules. Then one witness for each statement that has hypotheses. -/

namespace Sys2Proof.Tests
open Sys2Proof.Machine

/-! Well-formedness: the one check refuses the one ill-formed command. -/

theorem test_rkey15_ill_formed : (Instr.rkey 15).wellFormed = false := by decide
theorem test_rkey14_well_formed : (Instr.rkey 14).wellFormed = true := by decide

/-! Decoding: a byte written out bit by bit from the opcode map for each constructor, and the illegal neighbours. -/

theorem test_decode_nop : decode 0b00000000 = .command .nop := by decide
theorem test_decode_enc : decode 0b00000001 = .command .enc := by decide
theorem test_decode_dec : decode 0b00000010 = .command .dec := by decide
theorem test_decode_gen : decode 0b00000011 = .command .gen := by decide
theorem test_decode_fromPw : decode 0b00000100 = .command .fromPw := by decide
theorem test_decode_movdk : decode 0b00000101 = .command .movdk := by decide
theorem test_decode_movkd : decode 0b00000110 = .command .movkd := by decide
theorem test_decode_rkey : decode 0b00010111 = .command (.rkey 0b0111) := by decide
theorem test_decode_illegal : [0x07, 0x0F, 0x1F, 0x20, 0x80, 0xFF].map decode = List.replicate 6 .illegal := by decide
theorem test_decodeTableWord : decodeTableWord 8 0x1E = some (.rkey 14) ∧ decodeTableWord 8 0x1F = none := by decide

/-! Constants of 95_test_vectors.md, 2.1. -/

def keyA : Block := #v[0x2B, 0x7E, 0x15, 0x16, 0x28, 0xAE, 0xD2, 0xA6, 0xAB, 0xF7, 0x15, 0x88, 0x09, 0xCF, 0x4F, 0x3C]
def blockA : Block := #v[0x66, 0x69, 0x73, 0x68, 0x63, 0x6F, 0x64, 0x65, 0x20, 0x62, 0x6C, 0x6F, 0x63, 0x6B, 0x21, 0x21]
def upTo15 : Block := #v[0, 1, 2, 3, 4, 5, 6, 7, 8, 9, 10, 11, 12, 13, 14, 15]

/-- An idle machine with KEY and DATA written and RSIZE set. -/
def loaded (K B : Block) (n : BitVec 5) : State :=
  { State.reset with key := RegArray.full K, data := RegArray.full B, rsize := n }

/-- An idle machine with a password written whole. -/
def withPwd (P : Block) (L : BitVec 5) : State := { State.reset with pwd := RegArray.full P, pwlen := L }

/-- A machine whose next turn is the host's, with one operation to run. -/
def hostRuns (o : HostOp) (s : State) : State := { s with program := [o], sched := [.host] }

/-- A machine with a command pending. -/
def pending (c : Byte) (s : State) : State := { s with pend := some c, busy := true }

/-- One field of a next state. -/
def view {α : Type} (f : State → α) : Host.Outcome State Fault Refusal → Option α
  | .next s => some (f s)
  | .fault _ => none
  | .refused _ => none

def faultOf : Host.Outcome State Fault Refusal → Option Fault
  | .fault r => some r
  | _ => none

/-! One or two steps per command. -/

/-- V15. -/
theorem test_enc_16 : view (·.data.bytes) (exec .enc (loaded keyA blockA 16)) =
    some #v[0x55, 0x0F, 0x3C, 0x24, 0x83, 0x09, 0x81, 0xF4, 0xD7, 0xC9, 0xA5, 0x3B, 0xE6, 0x28, 0x5F, 0x2C] := by
  decide

/-- V11: odd RSIZE, byte 6 unswapped, bytes 7..15 kept. -/
theorem test_enc_odd : view (·.data.bytes) (exec .enc (loaded keyA blockA 7)) =
    some #v[0x55, 0x0F, 0x3C, 0x24, 0x83, 0x09, 0xF4, 0x65, 0x20, 0x62, 0x6C, 0x6F, 0x63, 0x6B, 0x21, 0x21] := by
  decide

/-- V15, the DEC column. -/
theorem test_dec_16 : view (·.data.bytes) (exec .dec (loaded keyA blockA 16)) =
    some #v[0x00, 0x5A, 0x3F, 0x27, 0x05, 0x8F, 0xF5, 0x80, 0x8B, 0x95, 0x38, 0xA6, 0x20, 0xEE, 0x2C, 0x5F] := by
  decide

/-- V10, the DEC column. -/
theorem test_dec_odd : view (·.data.bytes) (exec .dec (loaded keyA blockA 5)) =
    some #v[0x00, 0x5A, 0x3F, 0x27, 0x09, 0x6F, 0x64, 0x65, 0x20, 0x62, 0x6C, 0x6F, 0x63, 0x6B, 0x21, 0x21] := by
  decide

/-- 2.2, row r = 7, with RSIZE from 5. -/
theorem test_rkey_7 : view (fun t => (t.data.bytes, t.rsize)) (exec (.rkey 7) (loaded keyA blockA 5)) =
    some (#v[0x61, 0x34, 0x5F, 0x5C, 0x62, 0xE4, 0x98, 0xEC, 0xE1, 0xBD, 0x5F, 0xC2, 0x43, 0x85, 0x05, 0x76], 16) := by
  decide

/-- 2.2, corner cases: RKEY 0 from reset. -/
theorem test_rkey_unwritten : faultOf (step (State.reset.withFetchWord 8 0x10)) = some (.unwritten (.key 0)) := by
  decide

/-- 2.5: RSIZE from 5 to 16, KEY unchanged, all of DATA written. -/
theorem test_gen : view (fun t => (t.rsize, t.key.bytes, t.data.wr, t.busy)) (exec .gen (loaded keyA blockA 5)) =
    some (16, keyA, Vector.replicate 16 true, false) := by
  decide

/-- 2.4: "abcdefghi", PWLEN 9; PWD[9..16) holds other bytes. -/
theorem test_fromPw_9 : view (·.key.bytes) (exec .fromPw (withPwd
    #v[0x61, 0x62, 0x63, 0x64, 0x65, 0x66, 0x67, 0x68, 0x69, 0, 0, 0, 0, 0, 0, 0xFF] 9)) =
    some #v[0x61, 0x62, 0x63, 0x64, 0x65, 0x66, 0x67, 0x68, 0x69, 0x61, 0x62, 0x63, 0x64, 0x65, 0x66, 0x67] := by
  decide

/-- 2.4: a space at index 3 is rejected at issue. -/
theorem test_fromPw_space : view (fun t => (t.errcode, t.err, t.busy)) (memWrite 0x32 1 0x04 (withPwd
    #v[0x61, 0x62, 0x63, 0x20, 0x64, 0x65, 0x66, 0x67, 0, 0, 0, 0, 0, 0, 0, 0] 8)) =
    some (.invalidPassword, true, false) := by
  decide

/-- 2.6. -/
theorem test_movdk : view (fun t => (t.key.bytes, t.data.bytes)) (exec .movdk (loaded keyA upTo15 16)) =
    some (upTo15, upTo15) := by
  decide

/-- 2.6: RSIZE = 5. -/
theorem test_movdk_partial : view (fun t => (t.errcode, t.key.bytes)) (memWrite 0x32 1 0x05 (loaded keyA upTo15 5)) =
    some (.invalidRsize, keyA) := by
  decide

/-- 2.6: RSIZE from 3. -/
theorem test_movkd : view (fun t => (t.data.bytes, t.rsize)) (exec .movkd (loaded keyA blockA 3)) =
    some (keyA, 16) := by
  decide

/-- 2.7: ERR and ERRCODE kept. -/
theorem test_nop : view (fun t => (t.err, t.errcode, t.busy))
    (step (State.withFetchWord { State.reset with err := true, errcode := .illegalCommand } 8 0x00)) =
    some (true, .illegalCommand, false) := by
  decide

/-! The bus (2.3, 2.8, 2.9), the schedule (P5) and the host. -/

/-- 2.3: `wr RSIZE, 0xFF` then `rd RSIZE` gives 0x1F. -/
theorem test_rsize_masked : view (·.rsize) (memWrite 0x30 1 0xFF State.reset) = some 0x1F := by decide

/-- 2.8: first error wins. -/
theorem test_first_error_wins :
    view (·.errcode) (memWrite 0x32 1 0x01 { State.reset with err := true, errcode := .illegalCommand, rsize := 0 }) =
      some .illegalCommand := by
  decide

/-- 2.8: W1C while busy. -/
theorem test_w1c_busy :
    view (fun t => (t.err, t.errcode, t.busy))
      (memWrite 0x33 1 0x02 { pending 0x03 State.reset with err := true, errcode := .busyWrite }) =
      some (false, .noError, true) := by
  decide

/-- P5, outcome (b): the write arrives while GEN is pending, and is dropped. -/
theorem test_busy_write_dropped :
    view (fun t => (t.errcode, t.data.wr[0], t.pend)) (step (hostRuns (.wr 0x00 1 0xAA) (pending 0x03 State.reset))) =
      some (.busyWrite, false, some 0x03) := by
  decide

/-- P5, outcome (a): GEN completes first, and DATA is then written by the host. -/
theorem test_completion_first :
    view (fun t => (t.rsize, t.busy, t.hpc))
      (step { hostRuns (.wr 0x00 1 0xAA) (pending 0x03 State.reset) with sched := [.core, .host] }) =
      some (16, false, 0) := by
  decide

/-- 2.9: DATA[0] is unwritten after reset. -/
theorem test_read_unwritten : faultOf (step (hostRuns (.rd 0x00 1 0) State.reset)) = some (.unwritten (.data 0)) := by
  decide

/-- 2.8, STATUS read while busy and in error: 0x03. -/
theorem test_status_byte : statusByte true true = 0x03 ∧ statusByte true false = 0x02 := by decide

/-- R170: the five codes. -/
theorem test_error_codes :
    [ErrCode.noError, .invalidPassword, .invalidRsize, .illegalCommand, .busyWrite].map ErrCode.toByte =
      [0x00, 0x01, 0x02, 0x03, 0x04] := by decide

/-- R212: past the schedule a pending command need not complete at once; with the gap passed, it does. -/
theorem test_completion_waits :
    nextTurn { pending 0x03 State.reset with gap := 1 } = .host ∧ nextTurn (pending 0x03 State.reset) = .core ∧
      view (fun t => (t.busy, t.gap)) (step { pending 0x03 State.reset with gap := 1 }) = some (true, 0) := by decide

/-- R86, R87: `run ENC` with its words B201, 3300. -/
theorem test_run_enc :
    (assemble [.run .enc 0]).map (·.map fun o => o.access.map Access.word) =
      some [some 0xB201, some 0x3300, none] := by
  decide

/-- T6: the rows S = 15 and S = 33. -/
theorem test_file_sizes :
    (fullBlocks 15, partialSize 15, totalUnits 15, encryptedSize 15) = (0, 15, 1, 31) ∧
      (fullBlocks 33, partialSize 33, totalUnits 33, encryptedSize 33) = (2, 1, 3, 49) := by
  decide

/-! Witnesses: a concrete state and operands that meet the hypotheses of each statement that has some, one for each
clause, at the edges of ranges. -/

def good8 : Block := #v[0x21, 0x62, 0x63, 0x64, 0x65, 0x66, 0x67, 0x7E, 0, 0, 0, 0, 0, 0, 0, 0]
def good16 : Block := #v[0x21, 0x62, 0x63, 0x64, 0x65, 0x66, 0x67, 0x7E, 0x61, 0x62, 0x63, 0x64, 0x65, 0x66, 0x67, 0x7E]
def bad8 : Block := #v[0x61, 0x62, 0x63, 0x64, 0x65, 0x66, 0x67, 0x7F, 0, 0, 0, 0, 0, 0, 0, 0]

theorem witness_DecodeEncodeRoundTrip :
    (Instr.rkey 14).WellFormed ∧ decode 0x1E = .command (.rkey 14) ∧ decode 0x00 = .command .nop := by decide

theorem witness_IllegalBytesOnlyRecordTheError :
    State.reset.busy = false ∧ ∀ c ∈ [(0x07 : Byte), 0x0F, 0x1F, 0x20, 0xFF], decode c = .illegal := by decide

theorem witness_TransactionWordsRoundTrip :
    Access.ofWord 0xB201 = some (.write 0x32 0x01) ∧ Access.ofWord 0x3300 = some (.read 0x33) := by decide

theorem witness_PseudoOperationsExpand :
    assemble [.label 7, .wr .rsize 5, .bnz 0 3 7] = some [.wr 0x30 1 5, .bnz 0 3 0] ∧
    (List.replicate 16 (0xFF : Byte)).length ≤ 16 ∧ 15 < (List.replicate 16 (0xFF : Byte)).length ∧ 16 ≤ 16 := by
  decide

theorem witness_IdleReadMap :
    State.reset.busy = false ∧ State.reset.errcode = .noError ∧
      ({ State.reset with err := true, errcode := .busyWrite } : State).errcode = .busyWrite ∧ (0x35 : Offset) ≤ 0x35 ∧ (0x35 : Offset) ≤ 0x3F := by decide

theorem witness_IdleWriteMap :
    State.reset.busy = false ∧ (0x34 : Offset) ≤ 0x34 ∧ (0x34 : Offset) ≤ 0x3F := by decide

theorem witness_BusyAccesses :
    (pending 0x03 State.reset).busy = true ∧ (0x00 : Offset) ≤ 0x31 ∧ (0x31 : Offset) ≤ 0x31 ∧
      (0x32 : Offset) ≤ 0x32 ∧ (0x34 : Offset) ≤ 0x34 ∧ (0x35 : Offset) ≤ 0x3F ∧
      view (·.errcode) (memWrite 0x32 1 0xFF (pending 0x03 State.reset)) = some .busyWrite ∧
      ({ pending 0x03 State.reset with err := true, errcode := .invalidRsize } : State).errcode = .invalidRsize := by
  decide

theorem witness_WideAccessIsRefused : (0 ≠ 1) ∧ (2 ≠ 1) := by decide

theorem witness_WriteThenReadReturnsTheByte :
    State.reset.busy = false ∧ (0x2F : Offset) ≤ 0x31 ∧ (0x2F : Offset) < 0x30 ∧ (0x31 : Offset) ≤ 0x31 ∧
      (0x31 : Offset) ≠ 0x2F := by decide

theorem witness_ReadsChangeNoRegister :
    memRead 0x30 1 State.reset = .next (0x10, State.reset) ∧
      memRead 0x31 1 (pending 0x03 State.reset) = .next (Config.draw 0, takeDraws 1 (pending 0x03 State.reset)) :=
  ⟨rfl, rfl⟩

theorem witness_IssueChecks :
    State.reset.busy = false ∧ (loaded keyA blockA 1).rsize.toNat = 1 ∧ (loaded keyA blockA 16).rsize.toNat = 16 ∧
      (loaded keyA blockA 17).rsize.toNat = 17 ∧ (loaded keyA blockA 0).rsize.toNat = 0 ∧
      ¬(8 ≤ (withPwd good8 7).pwlen.toNat) ∧ ¬((withPwd good16 17).pwlen.toNat ≤ 16) := by decide

theorem witness_IssueChecks_password :
    (∀ k : Fin 16, k.val < (withPwd good8 8).pwlen.toNat →
      (withPwd good8 8).pwd.wr[k] = true ∧ 0x21 ≤ (withPwd good8 8).pwd.bytes[k] ∧
        (withPwd good8 8).pwd.bytes[k] ≤ 0x7E) ∧
    (∀ k : Fin 16, k.val < (withPwd good16 16).pwlen.toNat →
      0x21 ≤ (withPwd good16 16).pwd.bytes[k] ∧ (withPwd good16 16).pwd.bytes[k] ≤ 0x7E) ∧
    (7 < (withPwd bad8 8).pwlen.toNat ∧ ¬((withPwd bad8 8).pwd.bytes[7] ≤ 0x7E)) := by decide

theorem witness_IssueChecks_unwritten :
    8 ≤ ({ State.reset with pwlen := 8 } : State).pwlen.toNat ∧
      State.reset.pwd.wr[(5 : Fin 16)] = false ∧ ∀ k : Fin 16, State.reset.pwd.wr[k] ≠ true := by decide

theorem witness_AcceptanceIgnoresTheError :
    State.reset.busy = false ∧ decode 0x01 = .command .enc ∧ issueCheck .enc State.reset = .next .noError ∧
      (view (·.busy) (exec .enc (loaded keyA blockA 16))).isSome = true :=
  ⟨rfl, by decide, rfl, by decide⟩

theorem witness_ErrorsAreRecordedAndDoNothingElse :
    memWrite 0x32 1 0x1F State.reset = .next (raiseError .illegalCommand State.reset) ∧
      State.reset.err = false ∧ (raiseError .illegalCommand State.reset).err = true := ⟨rfl, rfl, rfl⟩

theorem witness_OnlyW1cAndResetClearTheError :
    (0x02 : Byte).getLsbD 1 = true ∧
      view (fun t => (t.err, t.errcode)) (step (hostRuns (.wr 0x33 1 0x02)
        { State.reset with err := true, errcode := .busyWrite })) = some (false, .noError) := by decide

theorem witness_BusyFollowsTheLifecycle :
    view (·.busy) (step (hostRuns (.wr 0x32 1 0x01) State.reset)) = some true ∧
      view (·.busy) (step (pending 0x00 State.reset)) = some false := by decide

theorem witness_HostCannotTouchAPendingCommand :
    (hostRuns (.wr 0x10 1 0x55) (pending 0x01 State.reset)).busy = true ∧
      nextTurn (hostRuns (.wr 0x10 1 0x55) (pending 0x01 State.reset)) = .host ∧
      view (·.key.wr[0]) (step (hostRuns (.wr 0x10 1 0x55) (pending 0x01 State.reset))) = some false := by decide

theorem witness_OnlyTheHostWritesThePassword :
    view (·.pwd.bytes[15]) (step (hostRuns (.wr 0x2F 1 0x55) State.reset)) = some 0x55 ∧
      view (·.pwlen) (step (hostRuns (.wr 0x31 1 0x08) State.reset)) = some 8 := by decide

theorem witness_RoundKeyBytes : 0 ≤ 14 ∧ 14 ≤ 14 := by decide
theorem witness_RoundConstantsAreDistinct : 0 ≤ 14 ∧ 14 ≤ 14 ∧ 0 ≠ 14 := by decide

theorem witness_SwapIsThePairPermutation :
    (1 ≤ 1 ∧ 1 ≤ 16) ∧ (1 ≤ 16 ∧ 16 ≤ 16) ∧ (15 % 2 = 1 ∧ (14 : Fin 16).val = 15 - 1) := by decide

theorem witness_KeyMixIsAnInvolution :
    14 ≤ 14 ∧ (1 ≤ 15 ∧ 15 ≤ 16) ∧
      ∀ i : Fin 16, i.val < 15 → (keyA.set 15 0)[i] = keyA[i] := by decide

theorem witness_EncryptClosedForm : (1 ≤ 1 ∧ 1 ≤ 16 ∧ (0 : Fin 16).val < 1) ∧
    (1 ≤ 16 ∧ 16 ≤ 16 ∧ (15 : Fin 16).val < 16) := by decide

/-- ENC and DEC with 4 bytes written and no more (2.3, corner cases). -/
def fourWritten : State :=
  { State.reset with
    rsize := 4
    data := ((((RegArray.reset.write 0 0x00).write 1 0x11).write 2 0x22).write 3 0x33)
    key := ((((RegArray.reset.write 0 0).write 1 1).write 2 2).write 3 3) }

theorem witness_EncryptAndDecryptAreInverse :
    1 ≤ fourWritten.rsize.toNat ∧ fourWritten.rsize.toNat ≤ 16 ∧
      ∀ i : Fin 16, i.val < fourWritten.rsize.toNat →
        fourWritten.data.wr[i] = true ∧ fourWritten.key.wr[i] = true := by decide

theorem witness_EncryptHasAFourRoundPeriod : 1 ≤ 1 ∧ 16 ≤ 16 ∧ 0 ≤ 2 ∧ 2 ≤ 2 := by decide

theorem witness_InactiveLanesAreUntouched :
    (1 ≤ 15 ∧ 15 ≤ 16) ∧ 15 ≤ (15 : Fin 16).val ∧
      ∀ i : Fin 16, i.val < 15 → blockA[i] = (blockA.set 15 0)[i] ∧ keyA[i] = (keyA.set 15 0)[i] := by decide

theorem witness_EncodePasswordRepeats : (8 ≤ 8 ∧ 8 ≤ 16) ∧ (8 ≤ 16 ∧ 16 ≤ 16) := by decide

/-- ENC completes on four written bytes: DATA[0..4) = 52 42 72 62 (2.3, corner cases). -/
theorem witness_EncCompletes :
    view (fun t => (t.data.bytes[0], t.data.bytes[1], t.data.bytes[2], t.data.bytes[3])) (exec .enc fourWritten) =
      some (0x52, 0x42, 0x72, 0x62) := by decide

theorem witness_DecCompletes : view (·.busy) (exec .dec (pending 0x02 fourWritten)) = some false := by decide

theorem witness_RkeyCompletes :
    (0 : BitVec 4).toNat ≤ 14 ∧ (14 : BitVec 4).toNat ≤ 14 ∧
      ∀ i : Fin 16, (loaded keyA blockA 16).key.wr[i] = true := by decide

theorem witness_FromPwCompletes :
    8 ≤ (withPwd good8 8).pwlen.toNat ∧ (withPwd good16 16).pwlen.toNat ≤ 16 ∧
      ∀ i : Fin 16, i.val < (withPwd good8 8).pwlen.toNat → (withPwd good8 8).pwd.wr[i] = true := by decide

theorem witness_MovdkCompletes : ∀ i : Fin 16, (loaded keyA blockA 16).data.wr[i] = true := by decide
theorem witness_MovkdCompletes : ∀ i : Fin 16, (loaded keyA blockA 16).key.wr[i] = true := by decide

theorem witness_UnwrittenOperandsDecideCompletion :
    (RealSize fourWritten.rsize.toNat ∧ ∀ l ∈ codecLocs 4, fourWritten.written l = true) ∧
      (RealSize State.reset.rsize.toNat ∧ .data 0 ∈ codecLocs 16 ∧ State.reset.written (.data 0) = false) := by decide

theorem witness_RegistersEachCommandWrites :
    [Instr.nop, .enc, .dec, .gen, .movdk, .movkd, .rkey 14].all (fun i =>
      (view (·.busy) (exec i (loaded keyA blockA 16))).isSome) = true ∧
    (view (·.busy) (exec .fromPw (withPwd good8 8))).isSome = true := by decide

theorem witness_CodecFrame :
    (view (·.busy) (exec .enc fourWritten)).isSome = true ∧ (view (·.busy) (exec .dec fourWritten)).isSome = true ∧
      fourWritten.rsize.toNat ≤ (0x04 : Offset).toNat ∧ (0x04 : Offset) ≠ 0x33 := by decide

theorem witness_DataLoadFrame :
    (view (·.busy) (exec (.rkey 14) (loaded keyA blockA 5))).isSome = true ∧
      (view (·.busy) (exec .gen State.reset)).isSome = true ∧
      (view (·.busy) (exec .movkd (loaded keyA blockA 5))).isSome = true ∧ (0x10 : Offset) ≤ 0x10 := by decide

theorem witness_KeyLoadFrame :
    (view (·.busy) (exec .fromPw (withPwd good16 16))).isSome = true ∧
      (view (·.busy) (exec .movdk (loaded keyA blockA 5))).isSome = true ∧
      (view (·.busy) (exec .nop State.reset)).isSome = true ∧
      (0x0F : Offset) < 0x10 ∧ (0x20 : Offset) ≤ 0x20 := by decide

theorem witness_CommandsAreFunctionsOfTheRegisters :
    (view (·.busy) (exec .enc (loaded keyA blockA 16))).isSome = true ∧ Instr.enc ≠ .gen ∧
      (loaded keyA blockA 16).data = (pending 0x01 (loaded keyA blockA 16)).data ∧
      faultOf (exec .enc State.reset) = some (.unwritten (.data 0)) ∧
      State.reset.data = (pending 0x01 State.reset).data := by decide

theorem witness_StepRunsThePendingCommand :
    nextTurn (pending 0x03 State.reset) = .core ∧ (pending 0x03 State.reset).pend = some 0x03 ∧
      decode 0x03 = .command .gen ∧ 0x1E < 256 ∧ decode (BitVec.ofNat 8 0x1E) = .command (.rkey 14) := by decide

theorem witness_StepRunsTheHostOperation :
    hostNext (.wr 0x30 1 0x05) (hostRuns (.wr 0x30 1 0x05) State.reset) ∧
      hostNext (.rd 0x30 1 0) (hostRuns (.rd 0x30 1 0) State.reset) ∧
      hostNext (.bnz 0 0 0) (hostRuns (.bnz 0 0 0) State.reset) ∧ hostNext .halt (hostRuns .halt State.reset) ∧
      view (·.rsize) (memWrite 0x30 1 0x05 State.reset) = some 5 ∧
      memRead 0x30 1 State.reset = .next (0x10, State.reset) ∧ Vars.wf State.reset.vars = true ∧
      (nextTurn State.reset = .host ∧ State.reset.program[State.reset.hpc]? = none) :=
  ⟨⟨rfl, rfl⟩, ⟨rfl, rfl⟩, ⟨rfl, rfl⟩, ⟨rfl, rfl⟩, by decide, rfl, rfl, rfl, rfl⟩

theorem witness_ResetEvent : nextTurn { pending 0x01 (loaded keyA blockA 16) with sched := [.reset] } = .reset := by
  decide

/-- An idle state, and a busy one, that meet the invariant. -/
theorem inv_loaded : (loaded keyA blockA 16).Inv := ⟨rfl, by decide, fun _ h => (by cases h), rfl⟩

theorem inv_pending : (pending 0x01 (loaded keyA blockA 16)).Inv :=
  ⟨rfl, by decide, fun c h => (by cases h; exact ⟨.enc, by decide, rfl⟩), rfl⟩

theorem witness_StepKeepsInv :
    (pending 0x01 (loaded keyA blockA 16)).Inv ∧
      (view (·.busy) (step (pending 0x01 (loaded keyA blockA 16)))).isSome = true :=
  ⟨inv_pending, by decide⟩

/-- The invariant at reset, with one host operation to run. -/
theorem inv_hostRuns (o : HostOp) : (hostRuns o State.reset).Inv :=
  ⟨rfl, by simp [hostRuns, State.reset], fun _ h => (by cases h), rfl⟩

theorem witness_StepsStopOnlyAsTheSpecSays :
    (hostRuns (.rd 0x00 1 0) State.reset).Inv ∧
      step (hostRuns (.rd 0x00 1 0) State.reset) = .fault (.unwritten (.data 0)) ∧
      (hostRuns (.rd 0x00 2 0) State.reset).Inv ∧
      step (hostRuns (.rd 0x00 2 0) State.reset) = .refused .wideAccess :=
  ⟨inv_hostRuns _, rfl, inv_hostRuns _, rfl⟩

/-- One witness for each end: a completion, an unwritten operand, a listed reset, a wide access. -/
theorem witness_PendingCommandsReachTheirCompletion :
    (pending 0x01 (loaded keyA blockA 16)).Inv ∧ (pending 0x01 (loaded keyA blockA 16)).pend = some 0x01 ∧
      decode 0x01 = .command .enc :=
  ⟨inv_pending, rfl, by decide⟩

/-- From reset, with one command pending that has no issue check on the registers as they stand. -/
theorem inv_pendingReset (ts : List Turn) (p : List HostOp) :
    ({ pending 0x06 State.reset with sched := ts, program := p } : State).Inv :=
  ⟨rfl, by simp [pending, State.reset], fun c h => (by cases h; exact ⟨.movkd, by decide, rfl⟩), rfl⟩

theorem witness_PendingCommandsReachTheirCompletion_stops :
    faultOf (step { pending 0x06 State.reset with sched := [.core], program := [] }) = some (.unwritten (.key 0)) ∧
      nextTurn { pending 0x06 State.reset with sched := [.reset], program := [] } = .reset ∧
      step { pending 0x06 State.reset with sched := [.host], program := [.rd 0x00 2 0] } = .refused .wideAccess :=
  ⟨by decide, rfl, rfl⟩

theorem witness_RunsFromInvAreSafe : (loaded keyA blockA 16).Inv := inv_loaded

/-- Two different states that differ in an unwritten byte only. -/
theorem witness_UnwrittenBytesAreInvisible :
    State.reset.SameWritten { State.reset with key := { State.reset.key with bytes := keyA } } ∧
      State.reset ≠ { State.reset with key := { State.reset.key with bytes := keyA } } :=
  ⟨⟨⟨rfl, by decide⟩, ⟨rfl, by decide⟩, ⟨rfl, by decide⟩, rfl⟩, by decide⟩

/-- The last offset of the window. -/
theorem witness_WindowIsSixtyFourBytes : windowOffset (busAddress 0x3F) = some 0x3F := by
  have h : Config.regBase ≤ busAddress 0x3F ∧ busAddress 0x3F < Config.regBase + 64 := by simp [busAddress]
  rw [windowOffset, if_pos h]; simp [busAddress]

theorem witness_TurnsFollowTheSchedule :
    (hostRuns .halt State.reset).sched = .host :: [] ∧ State.reset.sched = [] ∧ State.reset.gap = 0 ∧
      ({ State.reset with gap := 1 } : State).gap = 0 + 1 := by decide

end Sys2Proof.Tests
end

/-! PROOFS. The register window (20_memory.md): what each access of the window answers, register by register, and the
statements about it. -/

namespace Sys2Proof.Machine

/-! The offsets past ERRCODE (R51). -/

theorem ofOffset_eq_reserved_of_ge : ∀ off : Offset, 0x35 ≤ off → ∃ i, Reg.ofOffset off = .reserved i := by decide

/-- STATUS as a number: ERR at bit 1 and BUSY at bit 0 (R27). -/
theorem statusByte_eq_ofNat : ∀ err busy : Bool,
    statusByte err busy = BitVec.ofNat 8 (2 * err.toNat + busy.toNat) := by decide

/-! Reads of 0x32..0x3F: busy or not, they answer what the register holds (R54, R57). -/

theorem memRead_high_of_readReg {s : State} {off : Offset} {b : Byte} (ho : 0x31 < off.toNat)
    (hr : readReg (Reg.ofOffset off) s = .next b) : memRead off 1 s = .next (b, s) := by
  rw [memRead_high ho, hr, andThen_next]

theorem memRead_cmd (s : State) : memRead 0x32 1 s = .next (0x00, s) :=
  memRead_high_of_readReg (by decide) rfl

theorem memRead_status (s : State) :
    memRead 0x33 1 s = .next (BitVec.ofNat 8 (2 * s.err.toNat + s.busy.toNat), s) := by
  rw [← statusByte_eq_ofNat]
  exact memRead_high_of_readReg (by decide) rfl

theorem memRead_errcode {s : State} {code : ErrCode} (h : s.errcode = code) :
    memRead 0x34 1 s = .next (code.toByte, s) := by
  subst h
  exact memRead_high_of_readReg (by decide) rfl

theorem memRead_reserved (s : State) {off : Offset} (ho : 0x35 ≤ off) : memRead off 1 s = .next (0x00, s) := by
  obtain ⟨i, hi⟩ := ofOffset_eq_reserved_of_ge off ho
  have hlow : 0x31 < off.toNat := Nat.lt_of_lt_of_le (by decide) (BitVec.le_def.mp ho)
  exact memRead_high_of_readReg hlow (by rw [hi]; rfl)

/-! Reads of 0x00..0x31 while BUSY = 0 (R54). -/

theorem memRead_idle_of_readReg {s : State} (h : s.busy = false) {off : Offset} {b : Byte}
    (hr : readReg (Reg.ofOffset off) s = .next b) : memRead off 1 s = .next (b, s) := by
  rw [memRead_idle h, hr, andThen_next]

/-- A register that answers a byte if it is written and faults if not does so over the bus too, and keeps the state. -/
theorem memRead_idle_of_readReg_ite {s : State} (h : s.busy = false) {off : Offset} {p : Prop} [Decidable p]
    {b : Byte} {f : Fault} (hr : readReg (Reg.ofOffset off) s = if p then .next b else .fault f) :
    memRead off 1 s = if p then .next (b, s) else .fault f := by
  rw [memRead_idle h, hr]
  split
  · exact andThen_next _ _
  · exact andThen_fault _ _

theorem memRead_idle_data {s : State} (h : s.busy = false) (i : Fin 16) :
    memRead (BitVec.ofNat 6 i.val) 1 s =
      if s.data.wr[i] = true then .next (s.data.bytes[i], s) else .fault (.unwritten (.data i)) :=
  memRead_idle_of_readReg_ite h (by rw [ofOffset_data]; exact readReg_data i s)

theorem memRead_idle_key {s : State} (h : s.busy = false) (i : Fin 16) :
    memRead (BitVec.ofNat 6 (0x10 + i.val)) 1 s =
      if s.key.wr[i] = true then .next (s.key.bytes[i], s) else .fault (.unwritten (.key i)) :=
  memRead_idle_of_readReg_ite h (by rw [ofOffset_key]; exact readReg_key i s)

theorem memRead_idle_pwd {s : State} (h : s.busy = false) (i : Fin 16) :
    memRead (BitVec.ofNat 6 (0x20 + i.val)) 1 s =
      if s.pwd.wr[i] = true then .next (s.pwd.bytes[i], s) else .fault (.unwritten (.pwd i)) :=
  memRead_idle_of_readReg_ite h (by rw [ofOffset_pwd]; exact readReg_pwd i s)

theorem memRead_idle_rsize {s : State} (h : s.busy = false) :
    memRead 0x30 1 s = .next (BitVec.ofNat 8 s.rsize.toNat, s) :=
  memRead_idle_of_readReg h (by rw [BitVec.ofNat_toNat]; rfl)

theorem memRead_idle_pwlen {s : State} (h : s.busy = false) :
    memRead 0x31 1 s = .next (BitVec.ofNat 8 s.pwlen.toNat, s) :=
  memRead_idle_of_readReg h (by rw [BitVec.ofNat_toNat]; rfl)

/-- Settles O6: each register's own read, at its offsets. -/
theorem idleReadMap : Obligations.IdleReadMap := by
  intro s h
  refine ⟨fun i => ⟨memRead_idle_data h i, memRead_idle_key h i, memRead_idle_pwd h i⟩, memRead_idle_rsize h,
    memRead_idle_pwlen h, memRead_cmd s, memRead_status s, ?_, ?_, ?_, ?_, ?_, fun _ => memRead_reserved s⟩
  all_goals exact memRead_errcode

/-! Writes of 0x33..0x3F: busy or not, only a W1C clear acts (R55, R57). -/

theorem memWrite_status (v : Byte) (s : State) :
    memWrite 0x33 1 v s = .next (if v.getLsbD 1 = true then clearError s else s) := by
  rw [memWrite_high (by decide), apply_ite Host.Outcome.next]
  rfl

theorem ofOffset_eq_errcode_or_reserved_of_ge :
    ∀ off : Offset, 0x34 ≤ off → Reg.ofOffset off = .errcode ∨ ∃ i, Reg.ofOffset off = .reserved i := by decide

theorem memWrite_readOnly (s : State) (v : Byte) {off : Offset} (ho : 0x34 ≤ off) : memWrite off 1 v s = .next s := by
  have hlow : 0x32 < off.toNat := Nat.lt_of_lt_of_le (by decide) (BitVec.le_def.mp ho)
  rw [memWrite_high hlow]
  obtain hr | ⟨i, hr⟩ := ofOffset_eq_errcode_or_reserved_of_ge off ho <;> rw [hr, writeReg]

/-! Writes of 0x00..0x31 while BUSY = 0 (R55). -/

theorem memWrite_idle_data {s : State} (h : s.busy = false) (i : Fin 16) (v : Byte) :
    memWrite (BitVec.ofNat 6 i.val) 1 v s = .next { s with data := s.data.write i v } := by
  rw [memWrite_idle h, ofOffset_data, writeReg]

theorem memWrite_idle_key {s : State} (h : s.busy = false) (i : Fin 16) (v : Byte) :
    memWrite (BitVec.ofNat 6 (0x10 + i.val)) 1 v s = .next { s with key := s.key.write i v } := by
  rw [memWrite_idle h, ofOffset_key, writeReg]

theorem memWrite_idle_pwd {s : State} (h : s.busy = false) (i : Fin 16) (v : Byte) :
    memWrite (BitVec.ofNat 6 (0x20 + i.val)) 1 v s = .next { s with pwd := s.pwd.write i v } := by
  rw [memWrite_idle h, ofOffset_pwd, writeReg]

/-- RSIZE and PWLEN keep bits 4:0 of the byte written. -/
theorem memWrite_idle_rsize {s : State} (h : s.busy = false) (v : Byte) :
    memWrite 0x30 1 v s = .next { s with rsize := v.extractLsb' 0 5 } := by
  rw [memWrite_idle h, ← BitVec.setWidth_eq_extractLsb' (by decide)]
  rfl

theorem memWrite_idle_pwlen {s : State} (h : s.busy = false) (v : Byte) :
    memWrite 0x31 1 v s = .next { s with pwlen := v.extractLsb' 0 5 } := by
  rw [memWrite_idle h, ← BitVec.setWidth_eq_extractLsb' (by decide)]
  rfl

/-- Settles O7: each register's own write, at its offsets. -/
theorem idleWriteMap : Obligations.IdleWriteMap := fun s v h =>
  ⟨fun i => ⟨memWrite_idle_data h i v, memWrite_idle_key h i v, memWrite_idle_pwd h i v⟩,
    memWrite_idle_rsize h v, memWrite_idle_pwlen h v, memWrite_cmd h v, memWrite_status v s,
    fun _ => memWrite_readOnly s v⟩

end Sys2Proof.Machine

/-! PROOFS. Encoding (30_encoding.md): the legal and illegal command bytes, and the transaction words. -/

namespace Sys2Proof

/-! The command bytes (R84). -/

/-- The bytes of RKEY as a range: OP = 0x1 with any SUB but 0xF (R81). -/
theorem rkeyFields_iff (c : Byte) : (opField c = 0x1 ∧ subField c ≠ 0xF) ↔ 0x10 ≤ c ∧ c ≤ 0x1E := by
  have hop : (opField c).toNat = c.toNat / 16 := by
    rw [opField, BitVec.extractLsb'_toNat, Nat.shiftRight_eq_div_pow]
    omega
  have hsub : (subField c).toNat = c.toNat % 16 := by rw [subField, BitVec.extractLsb'_toNat, Nat.shiftRight_zero]
  bv_omega

/-- Only the decoder's last branch is illegal, and it is reached when every test before it fails (R83). -/
theorem decode_eq_illegal_iff (c : Byte) : decode c = .illegal ↔ (0x07 ≤ c ∧ c ≤ 0x0F) ∨ c = 0x1F ∨ 0x20 ≤ c := by
  simp only [decode, rkeyFields_iff, ite_eq_iff, reduceCtorEq, and_false, false_or, and_true]
  bv_omega

theorem exists_decode_eq_command_iff (c : Byte) :
    (∃ i, decode c = .command i) ↔ c ≤ 0x06 ∨ (0x10 ≤ c ∧ c ≤ 0x1E) := by
  have hne : (∃ i, decode c = .command i) ↔ ¬ decode c = .illegal := by cases decode c <;> simp
  rw [hne, decode_eq_illegal_iff]
  bv_omega

/-- R84's count: 9 + 1 bytes below 0x20, and all 224 from there on. -/
theorem illegalBytes_length :
    ((List.range 256).filter fun n => decode (BitVec.ofNat 8 n) = .illegal).length = 234 := by
  have hlow : ((List.range 32).filter fun n => decode (BitVec.ofNat 8 n) = .illegal).length = 10 := by decide
  have hhigh : ∀ n ∈ List.range' 32 224, decode (BitVec.ofNat 8 n) = .illegal := by
    intro n hn
    rw [List.mem_range'_1] at hn
    exact (decode_eq_illegal_iff _).mpr (.inr (.inr (by bv_omega)))
  have hsplit : List.range 256 = List.range 32 ++ List.range' 32 224 := by
    rw [List.range_eq_range', List.range_eq_range', List.range'_append_1]
  rw [hsplit, List.filter_append, List.length_append, hlow,
    List.filter_eq_self.mpr fun n hn => decide_eq_true (hhigh n hn), List.length_range']

end Sys2Proof

namespace Sys2Proof.Machine

/-- The error branch of `issue` (R101), over the bus. -/
theorem memWrite_cmd_illegal {c : Byte} {s : State} (h : s.busy = false) (hc : decode c = .illegal) :
    memWrite 0x32 1 c s = .next (raiseError .illegalCommand s) := by
  rw [memWrite_cmd h]
  exact issue_eq_next.mpr (.inl ⟨hc, rfl⟩)

/-- Settles O2: the decoder's last branch as a range of bytes, and `issue` on it. -/
theorem illegalBytesOnlyRecordTheError : Obligations.IllegalBytesOnlyRecordTheError :=
  ⟨decode_eq_illegal_iff, exists_decode_eq_command_iff, illegalBytes_length, fun _ _ => memWrite_cmd_illegal⟩

/-! The transaction words (R87): bits 15:14, 13:8 and 7:0 of a word are its kind, its offset and its byte. -/

theorem extractLsb'_kind (k : BitVec 2) (off : Offset) (v : Byte) : (k ++ off ++ v).extractLsb' 14 2 = k := by
  rw [BitVec.extractLsb'_append_eq_of_le (by decide)]
  exact BitVec.extractLsb'_append_eq_left

theorem extractLsb'_offset (k : BitVec 2) (off : Offset) (v : Byte) : (k ++ off ++ v).extractLsb' 8 6 = off := by
  rw [BitVec.extractLsb'_append_eq_of_le le_rfl]
  exact BitVec.extractLsb'_append_eq_right

theorem append_wordFields (w : BitVec 16) : w.extractLsb' 14 2 ++ w.extractLsb' 8 6 ++ w.extractLsb' 0 8 = w := by
  rw [BitVec.extractLsb'_append_extractLsb'_eq_extractLsb' (by decide)]
  exact BitVec.extractLsb'_append_extractLsb' (w := 8) (len := 8)

theorem toNat_wordFields (k : BitVec 2) (off : Offset) (v : Byte) :
    (k ++ off ++ v).toNat = 0x4000 * k.toNat + 0x100 * off.toNat + v.toNat := by
  rw [BitVec.toNat_append, BitVec.toNat_append, ← Nat.shiftLeft_add_eq_or_of_lt off.isLt,
    ← Nat.shiftLeft_add_eq_or_of_lt v.isLt, Nat.shiftLeft_eq, Nat.shiftLeft_eq]
  omega

theorem Access.ofWord_word (a : Access) : Access.ofWord a.word = some a := by
  cases a with
  | read _ | write _ _ =>
    rw [Access.ofWord, Access.word, extractLsb'_kind, extractLsb'_offset, BitVec.extractLsb'_append_eq_right]
    rfl

theorem Access.word_of_ofWord {w : BitVec 16} {a : Access} (h : Access.ofWord w = some a) : a.word = w := by
  rw [Access.ofWord] at h
  split_ifs at h with hw hr
  · cases h
    rw [Access.word, ← hw]
    exact append_wordFields w
  · obtain ⟨hk, hv⟩ := hr
    cases h
    rw [Access.word, ← hk, ← hv]
    exact append_wordFields w

theorem Access.toNat_word_write (off : Offset) (v : Byte) :
    (Access.write off v).word.toNat = 0x8000 + 0x100 * off.toNat + v.toNat :=
  toNat_wordFields 0x2 off v

theorem Access.toNat_word_read (off : Offset) : (Access.read off).word.toNat = 0x100 * off.toNat :=
  (toNat_wordFields 0x0 off 0x00).trans (by simp)

/-- Settles O4: a word is the concatenation of its fields, so splitting it and joining it undo each other. -/
theorem transactionWordsRoundTrip : Obligations.TransactionWordsRoundTrip :=
  ⟨Access.ofWord_word, fun _ _ => Access.word_of_ofWord,
    fun off v => ⟨Access.toNat_word_write off v, Access.toNat_word_read off⟩, by decide, by decide, fun _ _ _ => rfl⟩

end Sys2Proof.Machine

/-! PROOFS. The issue check of each command, and the registers each completion writes (40_command_execution.md). -/

namespace Sys2Proof

/-- RKEY's branch of the decoder as a range of bytes (R82, R83). -/
theorem decode_of_rkeyRange {c : Byte} (h : 0x10 ≤ c ∧ c ≤ 0x1E) : decode c = .command (.rkey (subField c)) := by
  have hlow : ∀ b : Byte, b ≤ 0x06 → c ≠ b := by bv_omega
  rw [decode, if_neg (hlow 0x00 (by decide)), if_neg (hlow 0x01 (by decide)), if_neg (hlow 0x02 (by decide)),
    if_neg (hlow 0x03 (by decide)), if_neg (hlow 0x04 (by decide)), if_neg (hlow 0x05 (by decide)),
    if_neg (hlow 0x06 (by decide)), if_pos ((rkeyFields_iff c).mpr h)]

end Sys2Proof

namespace Sys2Proof.Machine

section Issue
variable {c : Byte} {i : Instr} {s : State}

/-! A write to CMD while BUSY = 0, by what the issue check answers (R100). -/

theorem memWrite_cmd_accept (h : s.busy = false) (hd : decode c = .command i)
    (hc : issueCheck i s = .next .noError) : memWrite 0x32 1 c s = .next (accept c s) := by
  rw [memWrite_cmd h]
  exact issue_eq_next.mpr (.inr (.inl ⟨i, hd, hc, rfl⟩))

theorem memWrite_cmd_raise (h : s.busy = false) (hd : decode c = .command i) {code : ErrCode}
    (hcode : code ≠ .noError) (hc : issueCheck i s = .next code) :
    memWrite 0x32 1 c s = .next (raiseError code s) := by
  rw [memWrite_cmd h]
  exact issue_eq_next.mpr (.inr (.inr ⟨i, code, hd, hc, hcode, rfl⟩))

theorem memWrite_cmd_fault (h : s.busy = false) (hd : decode c = .command i) {f : Fault}
    (hc : issueCheck i s = .fault f) : memWrite 0x32 1 c s = .fault f := by
  rw [memWrite_cmd h, issue, hd]
  exact congrArg (andThen · _) hc

/-- A check that is one test, passed or answered with `code`, accepts or raises by that test. -/
theorem memWrite_cmd_of_check_ite (h : s.busy = false) (hd : decode c = .command i) {code : ErrCode}
    (hcode : code ≠ .noError) {p : Prop} [Decidable p]
    (hc : issueCheck i s = if p then .next .noError else .next code) :
    memWrite 0x32 1 c s = .next (if p then accept c s else raiseError code s) := by
  split_ifs at hc ⊢
  · exact memWrite_cmd_accept h hd hc
  · exact memWrite_cmd_raise h hd hcode hc

/-- NOP, GEN, MOVKD and RKEY have no check. -/
theorem memWrite_cmd_unchecked (h : s.busy = false) (hc : c = 0x00 ∨ c = 0x03 ∨ c = 0x06 ∨ (0x10 ≤ c ∧ c ≤ 0x1E)) :
    memWrite 0x32 1 c s = .next (accept c s) := by
  obtain rfl | rfl | rfl | hr := hc
  · exact memWrite_cmd_accept (i := .nop) h (by decide) rfl
  · exact memWrite_cmd_accept (i := .gen) h (by decide) rfl
  · exact memWrite_cmd_accept (i := .movkd) h (by decide) rfl
  · exact memWrite_cmd_accept h (decode_of_rkeyRange hr) rfl

/-- ENC and DEC share the check on the real size. -/
theorem memWrite_cmd_codec (h : s.busy = false) (hc : c = 0x01 ∨ c = 0x02) :
    memWrite 0x32 1 c s =
      .next (if RealSize s.rsize.toNat then accept c s else raiseError .invalidRsize s) := by
  obtain rfl | rfl := hc
  · exact memWrite_cmd_of_check_ite (i := .enc) h (by decide) (by decide) rfl
  · exact memWrite_cmd_of_check_ite (i := .dec) h (by decide) (by decide) rfl

theorem memWrite_cmd_movdk (h : s.busy = false) :
    memWrite 0x32 1 0x05 s =
      .next (if s.rsize.toNat = 16 then accept 0x05 s else raiseError .invalidRsize s) :=
  memWrite_cmd_of_check_ite (i := .movdk) h (by decide) (by decide) rfl

/-! FROMPW's check, case by case (R102, R153): the length, then the unwritten bytes, then the characters. -/

theorem decode_fromPw : decode 0x04 = .command .fromPw := by decide

theorem checkPassword_of_badLength (hl : ¬ PasswordLength s.pwlen.toNat) :
    checkPassword s = .next .invalidPassword :=
  if_neg hl

theorem checkPassword_of_written (hl : PasswordLength s.pwlen.toNat)
    (hw : ∀ k : Fin 16, k.val < s.pwlen.toNat → s.pwd.wr[k] = true) :
    checkPassword s =
      if passwordChars s.pwd.bytes s.pwlen.toNat = true then .next .noError else .next .invalidPassword := by
  rw [checkPassword, if_pos hl, require_of_written (pwdLocs_written.mpr hw)]

theorem checkPassword_of_unwritten (hl : PasswordLength s.pwlen.toNat)
    (hw : ∃ k : Fin 16, k.val < s.pwlen.toNat ∧ s.pwd.wr[k] = false) :
    ∃ k : Fin 16, k.val < s.pwlen.toNat ∧ s.pwd.wr[k] = false ∧
      checkPassword s = .fault (.unwritten (.pwd k)) := by
  obtain ⟨j, hj, hjw⟩ := hw
  rw [checkPassword, if_pos hl]
  obtain ⟨m, hm, hmw, hf⟩ := require_of_unwritten (mem_pwdLocs.mpr ⟨j, hj, rfl⟩) hjw
  obtain ⟨k, hk, rfl⟩ := mem_pwdLocs.mp hm
  exact ⟨k, hk, hmw, hf⟩

theorem memWrite_cmd_fromPw_of_written (h : s.busy = false) (hl : PasswordLength s.pwlen.toNat)
    (hw : ∀ k : Fin 16, k.val < s.pwlen.toNat → s.pwd.wr[k] = true) :
    memWrite 0x32 1 0x04 s =
      .next (if passwordChars s.pwd.bytes s.pwlen.toNat = true then accept 0x04 s
        else raiseError .invalidPassword s) :=
  memWrite_cmd_of_check_ite h decode_fromPw (by decide) (checkPassword_of_written hl hw)

theorem memWrite_cmd_fromPw_of_unwritten (h : s.busy = false) (hl : PasswordLength s.pwlen.toNat)
    (hw : ∃ k : Fin 16, k.val < s.pwlen.toNat ∧ s.pwd.wr[k] = false) :
    ∃ k : Fin 16, k.val < s.pwlen.toNat ∧ s.pwd.wr[k] = false ∧
      memWrite 0x32 1 0x04 s = .fault (.unwritten (.pwd k)) := by
  obtain ⟨k, hk, hkw, hc⟩ := checkPassword_of_unwritten hl hw
  exact ⟨k, hk, hkw, memWrite_cmd_fault h decode_fromPw hc⟩

end Issue

/-- Settles O12: each command's own check; FROMPW's by its length, its unwritten bytes and its characters. -/
theorem issueChecks : Obligations.IssueChecks := by
  intro s h
  refine ⟨fun _ => memWrite_cmd_unchecked h, fun _ => memWrite_cmd_codec h, memWrite_cmd_movdk h, ?badLength,
    fun hmin hmax hw => ⟨?goodChars, ?badChar⟩, fun hmin hmax hw _ => ?unwritten⟩
  case badLength =>
    exact fun hl => memWrite_cmd_raise h decode_fromPw (by decide) (checkPassword_of_badLength hl)
  case goodChars =>
    intro hchars
    rw [memWrite_cmd_fromPw_of_written h ⟨hmin, hmax⟩ hw, if_pos ((passwordChars_iff _ _).mpr hchars)]
    rfl
  case badChar =>
    rintro ⟨k, hk, hbad⟩
    have hchars : ¬ passwordChars s.pwd.bytes s.pwlen.toNat = true := fun hc =>
      hbad ((passwordChars_iff _ _).mp hc k hk)
    rw [memWrite_cmd_fromPw_of_written h ⟨hmin, hmax⟩ hw, if_neg hchars]
  case unwritten => exact memWrite_cmd_fromPw_of_unwritten h ⟨hmin, hmax⟩ hw

/-! The lanes at or above n: no round of the codec reads or writes them (R132). -/

section InactiveLanes
variable {n i : Nat} (hi : i < 16)

/-- A byte that every turn of a loop keeps is kept by the loop. -/
theorem foldl_get_of_turn_get {α : Type} {f : Block → α → Block} (hf : ∀ C a, (f C a)[i] = C[i]) (as : List α)
    (B : Block) : (as.foldl f B)[i] = B[i] :=
  List.foldlRecOn (motive := fun C : Block => C[i] = B[i]) as f rfl fun C hC a _ => (hf C a).trans hC

variable (hn : n ≤ i)
include hn

theorem swapPairs_get_of_le (B : Block) : (swapPairs B n)[i] = B[i] := by
  refine foldl_get_of_turn_get hi (fun C j => ?_) (List.finRange 8) B
  split
  · rw [swapPair_get C j hi, if_neg (by omega), if_neg (by omega)]
  · rfl

theorem keyMix_get_of_le (B K : Block) (r : Nat) : (keyMix B K r n)[i] = B[i] := by
  rw [keyMix_get B K r n hi, if_neg (by omega)]

theorem encRound_get_of_le (K B : Block) (r : Nat) : (encRound K n B r)[i] = B[i] := by
  rw [encRound, keyMix_get_of_le hi hn, swapPairs_get_of_le hi hn]

theorem decRound_get_of_le (K B : Block) (r : Nat) : (decRound K n B r)[i] = B[i] := by
  rw [decRound, swapPairs_get_of_le hi hn, keyMix_get_of_le hi hn]

theorem encrypt_get_of_le (B K : Block) : (encrypt B K n)[i] = B[i] := by
  rw [encrypt, foldl_get_of_turn_get hi (encRound_get_of_le hi hn K)]

theorem decrypt_get_of_le (B K : Block) : (decrypt B K n)[i] = B[i] := by
  rw [decrypt, foldl_get_of_turn_get hi (decRound_get_of_le hi hn K)]

end InactiveLanes

/-! The completions (R104, R109). -/

/-- `Apply` of a command (R104): the state a completion leaves, before PEND and BUSY are cleared. -/
def applied (i : Instr) (s : State) : State :=
  match i with
  | .nop => s
  | .enc => setDataBytes (encrypt s.data.bytes s.key.bytes s.rsize.toNat) s
  | .dec => setDataBytes (decrypt s.data.bytes s.key.bytes s.rsize.toNat) s
  | .gen => loadData (drawBlock s.drawn) (takeDraws 16 s)
  | .fromPw => loadKey (encodePassword s.pwd.bytes s.pwlen.toNat) s
  | .movdk => loadKey s.data.bytes s
  | .movkd => loadData s.key.bytes s
  | .rkey r => loadData (roundKey s.key.bytes r.toNat) s

/-- What a completion leaves, if it leaves a next state at all. -/
theorem exec_eq_next_applied {i : Instr} {s t : State} (h : exec i s = .next t) : t = retire (applied i s) := by
  cases i with
  | nop => exact execNop_eq_next.mp h
  | enc =>
    obtain ⟨-, -, ht⟩ := (completeCodec_eq_next (f := encrypt)).mp h
    exact ht
  | dec =>
    obtain ⟨-, -, ht⟩ := (completeCodec_eq_next (f := decrypt)).mp h
    exact ht
  | gen => exact execGen_eq_next.mp h
  | fromPw =>
    obtain ⟨-, -, ht⟩ := execFromPw_eq_next.mp h
    exact ht
  | movdk =>
    obtain ⟨-, ht⟩ := execMovdk_eq_next.mp h
    exact ht
  | movkd =>
    obtain ⟨-, ht⟩ := execMovkd_eq_next.mp h
    exact ht
  | rkey r =>
    obtain ⟨-, -, ht⟩ := execRkey_eq_next.mp h
    exact ht

/-! No command writes the password or the error. -/

@[simp] theorem applied_pwd (i : Instr) (s : State) : (applied i s).pwd = s.pwd := by cases i <;> simp [applied]
@[simp] theorem applied_pwlen (i : Instr) (s : State) : (applied i s).pwlen = s.pwlen := by cases i <;> simp [applied]
@[simp] theorem applied_err (i : Instr) (s : State) : (applied i s).err = s.err := by cases i <;> simp [applied]
@[simp] theorem applied_errcode (i : Instr) (s : State) : (applied i s).errcode = s.errcode := by
  cases i <;> simp [applied]

/-- Settles O37: the password and the error by `applied`'s frame, then the registers of each command; ENC and DEC by the
lanes their transforms keep. -/
theorem registersEachCommandWrites : Obligations.RegistersEachCommandWrites := by
  refine ⟨accept_busy, fun i s t h => ?_⟩
  obtain rfl := exec_eq_next_applied h
  refine ⟨retire_busy _, retire_pend _, applied_pwd i s, applied_pwlen i s, applied_err i s, applied_errcode i s, ?_⟩
  cases i with
  | enc => exact ⟨fun k hk => encrypt_get_of_le k.isLt hk s.data.bytes s.key.bytes, by simp [applied]⟩
  | dec => exact ⟨fun k hk => decrypt_get_of_le k.isLt hk s.data.bytes s.key.bytes, by simp [applied]⟩
  | nop | gen | fromPw | movdk | movkd | rkey r => simp [applied]

end Sys2Proof.Machine

/-! PROOFS. The block codec (41_block_codec.md): each of its functions byte by byte at a natural index, and the
statements about it. Past the block `byteAt` is zero, so the byte rules hold at every index once n is at most 16. -/

namespace Sys2Proof.Machine

/-! The round constants and the round keys (R120, R121). -/

/-- Settles O19: the byte of `roundKey`, with its constant written out. -/
theorem roundKeyBytes : Obligations.RoundKeyBytes := fun K r i _ => roundKey_get K r i.isLt

/-- A round constant is RC_BASE with the round index in its low bits, so indices that fit in a byte give different
constants. -/
theorem roundConst_inj {r q : Nat} (hr : r < 256) (hq : q < 256) : roundConst r = roundConst q ↔ r = q := by
  rw [roundConst, roundConst, BitVec.xor_right_inj, ← BitVec.toNat_inj, BitVec.toNat_ofNat, BitVec.toNat_ofNat,
    Nat.mod_eq_of_lt hr, Nat.mod_eq_of_lt hq]

theorem roundKey_inj (K : Block) {r q : Nat} : roundKey K r = roundKey K q ↔ roundConst r = roundConst q := by
  refine ⟨fun h => ?_, fun h => by rw [roundKey, roundKey, h]⟩
  have hbyte : (roundKey K r)[0] = (roundKey K q)[0] := by rw [h]
  rwa [roundKey_get, roundKey_get, BitVec.xor_right_inj] at hbyte

/-- Settles O20: the table by evaluation; constants and round keys differ because the indices do. -/
theorem roundConstantsAreDistinct : Obligations.RoundConstantsAreDistinct := by
  have hne : ∀ r q : Nat, r ≤ 14 → q ≤ 14 → r ≠ q → roundConst r ≠ roundConst q := fun r q hr hq h =>
    (roundConst_inj (by omega) (by omega)).not.mpr h
  exact ⟨by decide, hne, fun K r q hr hq h => (roundKey_inj K).not.mpr (hne r q hr hq h)⟩

/-! Bytes at a natural index. -/

theorem byteAt_of_lt (B : Block) {i : Nat} (hi : i < 16) : byteAt B i = B[i] := dif_pos hi
theorem byteAt_of_le (B : Block) {i : Nat} (hi : 16 ≤ i) : byteAt B i = 0 := dif_neg (by omega)
theorem byteAt_fin (B : Block) (i : Fin 16) : byteAt B i.val = B[i] := byteAt_of_lt B i.isLt

theorem Block.ext_byteAt {A B : Block} (h : ∀ i, byteAt A i = byteAt B i) : A = B :=
  Block.ext_fin fun i => by rw [← byteAt_fin, h, byteAt_fin]

/-! The permutation p_n (R122). -/

theorem pairIndex_pairIndex (n i : Nat) : pairIndex n (pairIndex n i) = i := by
  unfold pairIndex
  split_ifs <;> omega

theorem pairIndex_lt {n i : Nat} (h : i < n) : pairIndex n i < n := by
  unfold pairIndex
  split_ifs <;> omega

/-- p_n exchanges the bytes of one pair. -/
theorem pairIndex_div_two (n i : Nat) : pairIndex n i / 2 = i / 2 := by
  unfold pairIndex
  split_ifs <;> omega

theorem pairIndex_even {n j : Nat} (h : 2 * j + 1 < n) : pairIndex n (2 * j) = 2 * j + 1 := if_pos (by omega)

theorem pairIndex_odd {n j : Nat} (h : 2 * j + 1 < n) : pairIndex n (2 * j + 1) = 2 * j := by
  rw [pairIndex, if_neg (by omega), if_pos (by omega), Nat.add_sub_cancel]

/-- Outside the whole pairs below n, p_n keeps the index. -/
theorem pairIndex_eq_self {n i : Nat} (h : n ≤ 2 * (i / 2) + 1) : pairIndex n i = i := by
  rw [pairIndex, if_neg (by omega), if_neg (by omega)]

/-! The swap (R122): one turn of its loop per pair, and a pair is moved in its own turn only. -/

/-- The turn of `swapPairs` for the odd i = 2j + 1. -/
def swapTurn (n : Nat) (B : Block) (j : Fin 8) : Block := if 2 * j.val + 1 < n then swapPair B j else B

theorem swapPairs_eq_foldl (B : Block) (n : Nat) : swapPairs B n = (List.finRange 8).foldl (swapTurn n) B := rfl

theorem byteAt_swapPair (B : Block) (j : Fin 8) (i : Nat) :
    byteAt (swapPair B j) i =
      if i = 2 * j.val then byteAt B (2 * j.val + 1)
      else if i = 2 * j.val + 1 then byteAt B (2 * j.val)
      else byteAt B i := by
  by_cases hi : i < 16
  · simp only [byteAt_of_lt, hi, swapPair_get, show 2 * j.val + 1 < 16 by omega, show 2 * j.val < 16 by omega]
  · rw [if_neg (by omega), if_neg (by omega), byteAt_of_le _ (by omega), byteAt_of_le _ (by omega)]

theorem byteAt_swapTurn (n : Nat) (B : Block) (j : Fin 8) (i : Nat) :
    byteAt (swapTurn n B j) i = if i / 2 = j.val then byteAt B (pairIndex n i) else byteAt B i := by
  by_cases h : 2 * j.val + 1 < n
  · rw [swapTurn, if_pos h, byteAt_swapPair]
    obtain rfl | rfl | hother : i = 2 * j.val ∨ i = 2 * j.val + 1 ∨ i / 2 ≠ j.val := by omega
    · rw [if_pos rfl, if_pos (by omega), pairIndex_even h]
    · rw [if_neg (by omega), if_pos rfl, if_pos (by omega), pairIndex_odd h]
    · rw [if_neg (by omega), if_neg (by omega), if_neg hother]
  · rw [swapTurn, if_neg h]
    split_ifs
    · rw [pairIndex_eq_self (by omega)]
    · rfl

/-- The loop over any pairs, each once: bytes of the pairs visited go by p_n, the others stay. -/
theorem byteAt_foldl_swapTurn (n : Nat) {js : List (Fin 8)} (hjs : js.Nodup) (B : Block) (i : Nat) :
    byteAt (js.foldl (swapTurn n) B) i =
      if i / 2 ∈ js.map Fin.val then byteAt B (pairIndex n i) else byteAt B i := by
  induction js generalizing B with
  | nil => rfl
  | cons j js ih =>
    obtain ⟨hj, hjs⟩ := List.nodup_cons.mp hjs
    have hj' : j.val ∉ js.map Fin.val := by simpa [Fin.val_inj] using hj
    rw [List.foldl_cons, ih hjs, byteAt_swapTurn, byteAt_swapTurn, pairIndex_div_two, List.map_cons]
    by_cases h : i / 2 = j.val
    · simp [h, hj']
    · simp [h]

/-- The swap's loop takes one turn for each odd index below n. -/
theorem length_oddIndices : ∀ n ≤ 16, ((List.range 16).filter fun i => i % 2 = 1 ∧ i < n).length = n / 2 := by decide

section ByteRules
variable {n : Nat} (hn : n ≤ 16)
include hn

theorem byteAt_swapPairs (B : Block) (i : Nat) : byteAt (swapPairs B n) i = byteAt B (pairIndex n i) := by
  rw [swapPairs_eq_foldl, byteAt_foldl_swapTurn n (List.nodup_finRange 8)]
  simp only [List.map_coe_finRange_eq_range, List.mem_range]
  split_ifs
  · rfl
  · rw [pairIndex_eq_self (by omega)]

theorem swapPairs_swapPairs (B : Block) : swapPairs (swapPairs B n) n = B :=
  Block.ext_byteAt fun i => by rw [byteAt_swapPairs hn, byteAt_swapPairs hn, pairIndex_pairIndex]

/-! The key mix (R123). -/

theorem byteAt_keyMix (B K : Block) (r i : Nat) :
    byteAt (keyMix B K r n) i = if i < n then byteAt B i ^^^ (byteAt K i ^^^ roundConst r) else byteAt B i := by
  by_cases hi : i < 16
  · simp only [byteAt_of_lt, hi, keyMix_get]
  · rw [if_neg (by omega), byteAt_of_le _ (by omega), byteAt_of_le _ (by omega)]

theorem keyMix_keyMix (B K : Block) (r : Nat) : keyMix (keyMix B K r n) K r n = B :=
  Block.ext_byteAt fun i => by
    rw [byteAt_keyMix hn, byteAt_keyMix hn]
    split_ifs
    · rw [xor_cancel_right]
    · rfl

/-! The rounds (R124, R125). -/

theorem byteAt_encRound (B K : Block) (r i : Nat) :
    byteAt (encRound K n B r) i =
      if i < n then byteAt B (pairIndex n i) ^^^ (byteAt K i ^^^ roundConst r) else byteAt B i := by
  rw [encRound, byteAt_keyMix hn, byteAt_swapPairs hn]
  split_ifs
  · rfl
  · rw [pairIndex_eq_self (by omega)]

theorem decRound_encRound (B K : Block) (r : Nat) : decRound K n (encRound K n B r) r = B := by
  rw [decRound, encRound, keyMix_keyMix hn, swapPairs_swapPairs hn]

theorem encRound_decRound (B K : Block) (r : Nat) : encRound K n (decRound K n B r) r = B := by
  rw [decRound, encRound, swapPairs_swapPairs hn, keyMix_keyMix hn]

/-- Two rounds move no byte: each byte takes the key bytes of its pair and both round constants. -/
theorem byteAt_encRound_encRound (B K : Block) (r q i : Nat) :
    byteAt (encRound K n (encRound K n B r) q) i =
      if i < n then
        byteAt B i ^^^ (byteAt K (pairIndex n i) ^^^ byteAt K i ^^^ (roundConst r ^^^ roundConst q))
      else byteAt B i := by
  by_cases hi : i < n
  · rw [byteAt_encRound hn, byteAt_encRound hn, if_pos hi, if_pos (pairIndex_lt hi), if_pos hi, pairIndex_pairIndex]
    ac_rfl
  · rw [byteAt_encRound hn, if_neg hi, byteAt_encRound hn, if_neg hi, if_neg hi]

end ByteRules

/-- Undoing each turn of a loop, the last one first, undoes the loop. -/
theorem foldl_reverse_foldl {α β : Type} {f g : β → α → β} (h : ∀ b a, g (f b a) a = b) (as : List α) (b : β) :
    as.reverse.foldl g (as.foldl f b) = b := by
  rw [List.foldl_reverse]
  induction as generalizing b with
  | nil => rfl
  | cons a as ih => rw [List.foldl_cons, List.foldr_cons, ih, h]

/-! Four rounds are the identity, so only the last three of the 15 count (R134). -/

/-- Rounds 4j to 4j + 3. -/
def roundQuad (j : Nat) : List Nat := [4 * j, 4 * j + 1, 4 * j + 2, 4 * j + 3]

/-- The first two and the last two constants of four rounds add up to the same byte. -/
theorem roundConst_quad_cancel : ∀ j ≤ 2,
    roundConst (4 * j) ^^^ roundConst (4 * j + 1) = roundConst (4 * j + 2) ^^^ roundConst (4 * j + 3) := by decide

theorem rounds_eq_quads : List.range Config.rounds = roundQuad 0 ++ roundQuad 1 ++ roundQuad 2 ++ [12, 13, 14] := rfl

section Transforms
variable {n : Nat} (hn : n ≤ 16)
include hn

theorem foldl_encRound_roundQuad (B K : Block) {j : Nat} (hj : j ≤ 2) :
    (roundQuad j).foldl (encRound K n) B = B :=
  Block.ext_byteAt fun i => by
    simp only [roundQuad, List.foldl_cons, List.foldl_nil]
    rw [byteAt_encRound_encRound hn, byteAt_encRound_encRound hn, roundConst_quad_cancel j hj]
    split_ifs
    · rw [xor_cancel_right]
    · rfl

theorem encrypt_eq_lastThree (B K : Block) : encrypt B K n = [12, 13, 14].foldl (encRound K n) B := by
  rw [encrypt, rounds_eq_quads, List.foldl_append, List.foldl_append, List.foldl_append,
    foldl_encRound_roundQuad hn B K (by decide), foldl_encRound_roundQuad hn B K (by decide),
    foldl_encRound_roundQuad hn B K (by decide)]

/-! The closed forms, and that the transforms invert each other (R127, R129). -/

/-- Rounds 12 and 13 leave the pair's key bytes; round 14 swaps and takes its own key byte out again. -/
theorem byteAt_encrypt (B K : Block) {i : Nat} (hi : i < n) :
    byteAt (encrypt B K n) i = byteAt B (pairIndex n i) ^^^ byteAt K (pairIndex n i) ^^^ 0x42 := by
  have hrc : roundConst 12 ^^^ roundConst 13 ^^^ roundConst 14 = 0x42 := by decide
  rw [encrypt_eq_lastThree hn]
  simp only [List.foldl_cons, List.foldl_nil]
  rw [byteAt_encRound hn, if_pos hi, byteAt_encRound_encRound hn, if_pos (pairIndex_lt hi), pairIndex_pairIndex]
  calc byteAt B (pairIndex n i) ^^^
        (byteAt K i ^^^ byteAt K (pairIndex n i) ^^^ (roundConst 12 ^^^ roundConst 13)) ^^^
        (byteAt K i ^^^ roundConst 14)
    _ = byteAt K i ^^^ (byteAt K i ^^^ (byteAt B (pairIndex n i) ^^^ byteAt K (pairIndex n i) ^^^
          (roundConst 12 ^^^ roundConst 13 ^^^ roundConst 14))) := by ac_rfl
    _ = byteAt B (pairIndex n i) ^^^ byteAt K (pairIndex n i) ^^^ 0x42 := by rw [xor_cancel_left, hrc]

theorem decrypt_encrypt (B K : Block) : decrypt (encrypt B K n) K n = B :=
  foldl_reverse_foldl (fun C r => decRound_encRound hn C K r) _ B

theorem encrypt_decrypt (B K : Block) : encrypt (decrypt B K n) K n = B := by
  have h := foldl_reverse_foldl (fun C r => encRound_decRound hn C K r) (List.range Config.rounds).reverse B
  rwa [List.reverse_reverse] at h

/-- Encrypt's closed form, solved for the byte of its argument. -/
theorem byteAt_decrypt (B K : Block) {i : Nat} (hi : i < n) :
    byteAt (decrypt B K n) i = byteAt B (pairIndex n i) ^^^ byteAt K i ^^^ 0x42 := by
  have h := byteAt_encrypt hn (decrypt B K n) K (pairIndex_lt hi)
  rw [encrypt_decrypt hn, pairIndex_pairIndex] at h
  rw [xor_assoc] at h ⊢
  exact (xor_eq_iff_left_eq _ _ _).mp h.symm

end Transforms

/-! ENC and DEC complete on their operands (R126, R128). -/

section Completions
variable {s : State} (hsize : RealSize s.rsize.toNat)
  (hw : ∀ i : Fin 16, i.val < s.rsize.toNat → s.data.wr[i] = true ∧ s.key.wr[i] = true)
include hsize hw

theorem exec_enc_of_written : exec .enc s = .next (retire (applied .enc s)) :=
  completeCodec_eq_next.mpr ⟨hsize, hw, rfl⟩

theorem exec_dec_of_written : exec .dec s = .next (retire (applied .dec s)) :=
  completeCodec_eq_next.mpr ⟨hsize, hw, rfl⟩

end Completions

/-! The statements. -/

/-- Settles O21: the swap's byte rule, and what p_n does to an index. -/
theorem swapIsThePairPermutation : Obligations.SwapIsThePairPermutation := by
  intro B n _ hn
  have hget : ∀ i : Fin 16, (swapPairs B n)[i] = byteAt B (pairIndex n i.val) := fun i => by
    rw [← byteAt_fin, byteAt_swapPairs hn]
  refine ⟨hget, length_oddIndices n hn, fun i hi => ?_, pairIndex_pairIndex n, swapPairs_swapPairs hn B⟩
  rw [hget, pairIndex_eq_self (by omega), byteAt_fin]

/-- Settles O22: the key mix's byte rule, which names byte i of K for i < n only. -/
theorem keyMixIsAnInvolution : Obligations.KeyMixIsAnInvolution := by
  intro B K r n _ _ hn
  have hget : ∀ (K : Block) (i : Fin 16),
      (keyMix B K r n)[i] = if i.val < n then B[i] ^^^ (roundKey K r)[i] else B[i] := fun K i => by
    simp only [Fin.getElem_fin, keyMix_get, roundKey_get]
  refine ⟨hget K, fun K' hK => Block.ext_fin fun i => ?_, keyMix_keyMix hn B K r⟩
  rw [hget, hget]
  split_ifs with hi
  · simp only [Fin.getElem_fin, roundKey_get] at hK ⊢
    rw [hK i hi]
  · rfl

/-- Settles O23: the byte rule of the last three rounds. -/
theorem encryptClosedForm : Obligations.EncryptClosedForm := fun B K n i _ hn hi => by
  rw [← byteAt_fin, byteAt_encrypt hn B K hi]

/-- Settles O24: Decrypt undoes Encrypt round by round; ENC writes no RSIZE, KEY or WR entry, so DEC completes on what
ENC leaves. -/
theorem encryptAndDecryptAreInverse : Obligations.EncryptAndDecryptAreInverse := by
  refine ⟨fun B K n _ hn => ⟨decrypt_encrypt hn B K, encrypt_decrypt hn B K, fun i hi => ?closedForm⟩,
    fun s hmin hmax hw => ?restores⟩
  case closedForm => rw [← byteAt_fin, byteAt_decrypt hn B K hi, byteAt_fin K]
  case restores =>
    have hsize : RealSize s.rsize.toNat := ⟨hmin, hmax⟩
    refine ⟨_, _, exec_enc_of_written hsize hw, exec_dec_of_written (s := retire (applied .enc s)) hsize hw, ?_⟩
    simp [applied, decrypt_encrypt hmax]

/-- Settles O25: four rounds by their byte rule, then Encrypt without its first twelve. -/
theorem encryptHasAFourRoundPeriod : Obligations.EncryptHasAFourRoundPeriod := fun B K _ _ hn =>
  ⟨fun _ => foldl_encRound_roundQuad hn B K, encrypt_eq_lastThree hn B K⟩

end Sys2Proof.Machine

/-! PROOFS. Password encoding (42_key_material.md): the two loops of `Encode` byte by byte, and the statement
about it. -/

namespace Sys2Proof.Machine

/-- The fill writes no byte below L (R152). -/
theorem foldl_encodeFill_get_of_lt {L i : Nat} (hi : i < 16) (h : i < L) (ks : List (Fin 16)) (out : Block) :
    (ks.foldl (encodeFill L) out)[i] = out[i] :=
  foldl_get_of_turn_get hi (fun out k => by rw [encodeFill_get L out k hi, if_neg (by omega)]) ks out

/-- Byte L + k is written in turn k only. With L at least 8, k is below L, so no turn before it writes the byte it
reads (R155). -/
theorem foldl_encodeFill_get_add {L : Nat} (hL : 8 ≤ L) (k : Fin 16) (h : L + k.val < 16) (ks : List (Fin 16))
    (out : Block) : (ks.foldl (encodeFill L) out)[L + k.val] = if k ∈ ks then out[k.val] else out[L + k.val] := by
  induction ks generalizing out with
  | nil => rfl
  | cons j js ih =>
    have hread : (encodeFill L out j)[k.val] = out[k.val] := by
      rw [encodeFill_get L out j k.isLt, if_neg (by omega)]
    rw [List.foldl_cons, ih, hread, encodeFill_get L out j h]
    by_cases hkj : k = j
    · simp [hkj]
    · simp [hkj, Fin.val_inj]

/-- The copied bytes of `Encode`, at any length. -/
theorem encodePassword_get_of_lt (s : Block) {L i : Nat} (hi : i < 16) (h : i < L) :
    (encodePassword s L)[i] = s[i] := by
  rw [encodePassword, foldl_encodeFill_get_of_lt hi h, encodeCopy_get, if_pos h]

/-- The filled bytes of `Encode`. -/
theorem encodePassword_get_add (s : Block) {L : Nat} (hL : 8 ≤ L) (k : Fin 16) (h : L + k.val < 16) :
    (encodePassword s L)[L + k.val] = s[k.val] := by
  rw [encodePassword, foldl_encodeFill_get_add hL k h, if_pos (List.mem_finRange k), encodeCopy_get, if_pos (by omega)]

/-- Settles O27: byte i is a copied byte below L, and at L + k a fill from byte k, where k is i mod L. -/
theorem encodePasswordRepeats : Obligations.EncodePasswordRepeats := by
  rintro s L ⟨i, hi⟩ hL -
  obtain h | ⟨k, rfl⟩ := (Nat.lt_or_ge i L).imp_right Nat.exists_eq_add_of_le
  · rw [Nat.mod_eq_of_lt h, byteAt_of_lt s hi]
    exact encodePassword_get_of_lt s hi h
  · have hk : k < 16 := by omega
    rw [Nat.add_mod_left, Nat.mod_eq_of_lt (by omega), byteAt_of_lt s hk]
    exact encodePassword_get_add s hL ⟨k, hk⟩ hi

end Sys2Proof.Machine

/-! PROOFS. Errors (60_exceptions.md): what each turn of the machine does to ERR and ERRCODE, and the statements about
them. -/

namespace Sys2Proof.Machine

/-! Recording an error, by what ERR was (R172). -/

theorem raiseError_of_err_false {s : State} (h : s.err = false) (code : ErrCode) :
    raiseError code s = { s with errcode := code, err := true } := by
  simp [raiseError, h]

theorem raiseError_of_err_true {s : State} (h : s.err = true) (code : ErrCode) : raiseError code s = s := by
  cases s
  cases h
  rfl

/-! Bus writes: each one records an error, clears it, or leaves ERR and ERRCODE alone (R172, R174). -/

theorem eq_offset_of_ofOffset {off : Offset} {r : Reg} (h : Reg.ofOffset off = r) : off = r.offset := by
  rw [← h, offset_ofOffset]

theorem issue_eq_raise_or_accept {c : Byte} {s t : State} (h : issue c s = .next t) :
    (∃ code, code ≠ .noError ∧ t = raiseError code s) ∨ t = accept c s := by
  obtain ⟨-, ht⟩ | ⟨i, -, -, ht⟩ | ⟨i, code, -, -, hcode, ht⟩ := issue_eq_next.mp h
  · exact .inl ⟨.illegalCommand, by decide, ht⟩
  · exact .inr ht
  · exact .inl ⟨code, hcode, ht⟩

theorem writeReg_error_cases {r : Reg} {v : Byte} {s t : State} (h : writeReg r v s = .next t) :
    (∃ code, code ≠ .noError ∧ t = raiseError code s) ∨
    (r = .status ∧ v.getLsbD 1 = true ∧ t = clearError s) ∨
    (t.err = s.err ∧ t.errcode = s.errcode) := by
  cases r with
  | cmd =>
    obtain hraise | rfl := issue_eq_raise_or_accept h
    · exact .inl hraise
    · exact .inr (.inr ⟨rfl, rfl⟩)
  | status =>
    rw [writeReg] at h
    split at h
    · exact .inr (.inl ⟨rfl, ‹_›, (Host.Outcome.next.inj h).symm⟩)
    · obtain rfl := Host.Outcome.next.inj h
      exact .inr (.inr ⟨rfl, rfl⟩)
  | data i | key i | pwd i | rsize | pwlen | errcode | reserved i =>
    obtain rfl := Host.Outcome.next.inj h
    exact .inr (.inr ⟨rfl, rfl⟩)

theorem memWrite_error_cases {off : Offset} {width : Nat} {v : Byte} {s t : State}
    (h : memWrite off width v s = .next t) :
    (∃ code, code ≠ .noError ∧ t = raiseError code s) ∨
    (off = 0x33 ∧ width = 1 ∧ v.getLsbD 1 = true ∧ t = clearError s) ∨
    (t.err = s.err ∧ t.errcode = s.errcode) := by
  obtain ⟨hwidth, ⟨-, -, ht⟩ | ⟨-, hreg⟩⟩ := memWrite_eq_next.mp h
  · exact .inl ⟨.busyWrite, by decide, ht⟩
  · obtain hraise | ⟨hstatus, hbit, ht⟩ | hsame := writeReg_error_cases hreg
    · exact .inl hraise
    · exact .inr (.inl ⟨eq_offset_of_ofOffset hstatus, hwidth, hbit, ht⟩)
    · exact .inr (.inr hsame)

/-- Settles O14: of what a bus write can do to the error, only recording one turns ERR from 0 to 1. -/
theorem errorsAreRecordedAndDoNothingElse : Obligations.ErrorsAreRecordedAndDoNothingElse := by
  refine ⟨fun code s => ?record, fun a b s => raiseError_of_err_true (raiseError_err a s) b, ?write⟩
  case record =>
    cases h : s.err with
    | false => rw [raiseError_of_err_false h, if_pos rfl]
    | true => simp [raiseError, h]
  case write =>
    rintro off width v s t h ⟨hs, ht⟩
    obtain ⟨code, hcode, rfl⟩ | ⟨-, -, -, rfl⟩ | ⟨hsame, -⟩ := memWrite_error_cases h
    · exact ⟨code, hcode, raiseError_of_err_false hs code⟩
    · cases ht
    · rw [hsame, hs] at ht
      cases ht

/-! What no turn but a W1C write and a reset undoes (R174). -/

/-- From s to t, ERR has not been cleared, and neither has ERRCODE. -/
def ErrorKept (s t : State) : Prop :=
  (s.err = true → t.err = true) ∧ (s.errcode ≠ .noError → t.errcode ≠ .noError)

theorem errorKept_of_same {s t : State} (h : t.err = s.err ∧ t.errcode = s.errcode) : ErrorKept s t := by
  obtain ⟨herr, hcode⟩ := h
  rw [ErrorKept, herr, hcode]
  exact ⟨id, id⟩

/-- The code recorded is no NONE, and it only replaces the old one where ERR was 0. -/
theorem errorKept_raiseError {code : ErrCode} (hcode : code ≠ .noError) (s : State) :
    ErrorKept s (raiseError code s) := by
  refine ⟨fun _ => raiseError_err code s, fun hold => ?_⟩
  rw [raiseError_errcode]
  split
  · exact hold
  · exact hcode

theorem hostOp_errorKept_or_clears {o : HostOp} {s t : State} (h : hostOp o s = .next t) :
    ErrorKept s t ∨ ∃ v : Byte, o = .wr 0x33 1 v ∧ v.getLsbD 1 = true := by
  cases o with
  | wr off width v =>
    obtain ⟨u, hu, rfl⟩ := hostOp_wr_eq_next.mp h
    obtain ⟨code, hcode, rfl⟩ | ⟨rfl, rfl, hbit, -⟩ | hsame := memWrite_error_cases hu
    · exact .inl (errorKept_raiseError hcode s)
    · exact .inr ⟨v, rfl, hbit⟩
    · exact .inl (errorKept_of_same hsame)
  | rd off width dst =>
    obtain ⟨b, u, hu, rfl⟩ := hostOp_rd_eq_next.mp h
    obtain ⟨-, ⟨-, -, -, rfl⟩ | ⟨-, -, rfl⟩⟩ := memRead_eq_next.mp hu
    · exact .inl (errorKept_of_same ⟨rfl, rfl⟩)
    · exact .inl (errorKept_of_same ⟨rfl, rfl⟩)
  | bnz x bit target =>
    rw [hostOp_bnz, Host.Outcome.next.injEq] at h
    subst h
    refine .inl (errorKept_of_same ?_)
    split <;> exact ⟨rfl, rfl⟩
  | halt =>
    obtain rfl := Host.Outcome.next.inj h
    exact .inl (errorKept_of_same ⟨rfl, rfl⟩)

/-- A completion writes neither ERR nor ERRCODE: success does not clear them. -/
theorem coreTurn_error_same {s t : State} (h : coreTurn s = .next t) : t.err = s.err ∧ t.errcode = s.errcode := by
  obtain ⟨-, rfl⟩ | ⟨c, i, -, -, hexec⟩ := coreTurn_eq_next.mp h
  · exact ⟨rfl, rfl⟩
  · obtain rfl := exec_eq_next_applied hexec
    exact ⟨applied_err i s, applied_errcode i s⟩

theorem step_errorKept_or_clears {s t : State} (h : step s = .next t) :
    ErrorKept s t ∨ nextTurn s = .reset ∨ ∃ v : Byte, hostNext (.wr 0x33 1 v) s ∧ v.getLsbD 1 = true := by
  obtain ⟨-, -, rfl⟩ | ⟨o, hnext, hop⟩ | ⟨-, hcore⟩ | ⟨hreset, -⟩ := step_eq_next.mp h
  · exact .inl (errorKept_of_same ⟨rfl, rfl⟩)
  · obtain hkept | ⟨v, rfl, hbit⟩ := hostOp_errorKept_or_clears hop
    · exact .inl hkept
    · exact .inr (.inr ⟨v, hnext, hbit⟩)
  · exact .inl (errorKept_of_same (coreTurn_error_same (s := dropTurn s) hcore))
  · exact .inr (.inl hreset)

/-- Settles O15: a step that keeps the error cannot have cleared ERR or ERRCODE. -/
theorem onlyW1cAndResetClearTheError : Obligations.OnlyW1cAndResetClearTheError := by
  refine ⟨fun s v hbit => ?w1c, fun s => ⟨coreReset_err s, coreReset_errcode s⟩, fun s t h hcleared => ?step⟩
  case w1c =>
    rw [memWrite_status, if_pos hbit]
    rfl
  case step =>
    refine (step_errorKept_or_clears h).resolve_left fun ⟨herr, hcode⟩ => ?_
    obtain ⟨hs, ht⟩ | ⟨hs, ht⟩ := hcleared
    · exact absurd (herr hs) (by simp [ht])
    · exact hcode hs ht

end Sys2Proof.Machine

/-! PROOFS. Reset (70_reset_and_hazards.md): what a reset turn answers, and the reads of the window after it. -/

namespace Sys2Proof.Machine

@[simp] theorem RegArray.reset_wr {i : Nat} (hi : i < 16) : RegArray.reset.wr[i] = false := by
  simp [RegArray.reset]

theorem step_of_reset {s : State} (h : nextTurn s = .reset) : step s = .next (coreReset (dropTurn s)) :=
  step_eq_next.mpr (.inr (.inr (.inr ⟨h, rfl⟩)))

/-! Reads after a reset, from any state before it (R35, R54). -/

theorem readReg_status_coreReset (s : State) : readReg .status (coreReset s) = .next 0x00 :=
  congrArg Host.Outcome.next (show statusByte false false = 0x00 by decide)

theorem readReg_data_coreReset (i : Fin 16) (s : State) :
    readReg (.data i) (coreReset s) = .fault (.unwritten (.data i)) := by
  rw [readReg_data, coreReset_data]
  exact if_neg (by simp)

theorem readReg_key_coreReset (i : Fin 16) (s : State) :
    readReg (.key i) (coreReset s) = .fault (.unwritten (.key i)) := by
  rw [readReg_key, coreReset_key]
  exact if_neg (by simp)

theorem readReg_pwd_coreReset (i : Fin 16) (s : State) :
    readReg (.pwd i) (coreReset s) = .fault (.unwritten (.pwd i)) := by
  rw [readReg_pwd, coreReset_pwd]
  exact if_neg (by simp)

/-- Settles O44: the reset turn steps to the core's reset of the state, whatever that state was. -/
theorem resetEvent : Obligations.ResetEvent := by
  intro s hturn
  refine ⟨coreReset (dropTurn s), step_of_reset hturn, coreReset_rsize _, coreReset_pwlen _, coreReset_busy _,
    coreReset_err _, coreReset_errcode _, coreReset_pend _, fun i => ?unwritten, readReg_status_coreReset _,
    fun i => ?faults⟩
  case unwritten =>
    rw [coreReset_data, coreReset_key, coreReset_pwd]
    exact ⟨RegArray.reset_wr i.isLt, RegArray.reset_wr i.isLt, RegArray.reset_wr i.isLt⟩
  case faults =>
    exact ⟨readReg_data_coreReset i _, readReg_key_coreReset i _, readReg_pwd_coreReset i _⟩

end Sys2Proof.Machine

/-! PROOFS. The encoder and the decoder undo each other (30_encoding.md). -/

namespace Sys2Proof

/-- OP and SUB are the two halves of a command byte (R80). -/
theorem opField_append_subField (c : Byte) : opField c ++ subField c = c :=
  BitVec.extractLsb'_append_extractLsb' (w := 4) (len := 4)

theorem wellFormed_rkey {r : BitVec 4} : (Instr.rkey r).WellFormed ↔ r ≠ 0xF := bne_iff_ne

theorem decode_encode {i : Instr} (h : i.WellFormed) : decode (encode i) = .command i := by
  cases i with
  | nop | enc | dec | gen | fromPw | movdk | movkd => decide
  | rkey r =>
    obtain ⟨hop, hsub⟩ := rkey_fields r
    have hr : subField (encode (.rkey r)) ≠ 0xF := by rw [hsub]; exact wellFormed_rkey.mp h
    rw [decode_of_rkeyRange ((rkeyFields_iff _).mp ⟨hop, hr⟩), hsub]

theorem wellFormed_and_encode_of_decode {c : Byte} {i : Instr} (h : decode c = .command i) :
    i.WellFormed ∧ encode i = c := by
  unfold decode at h
  split_ifs at h with h0 h1 h2 h3 h4 h5 h6 hrkey <;> cases h
  · exact ⟨rfl, h0.symm⟩
  · exact ⟨rfl, h1.symm⟩
  · exact ⟨rfl, h2.symm⟩
  · exact ⟨rfl, h3.symm⟩
  · exact ⟨rfl, h4.symm⟩
  · exact ⟨rfl, h5.symm⟩
  · exact ⟨rfl, h6.symm⟩
  · obtain ⟨hop, hsub⟩ := hrkey
    refine ⟨wellFormed_rkey.mpr hsub, ?_⟩
    rw [encode, ← hop, opField_append_subField]

end Sys2Proof

namespace Sys2Proof.Machine

/-- Settles O1: each command by its byte; RKEY by the two fields of its byte. -/
theorem decodeEncodeRoundTrip : Obligations.DecodeEncodeRoundTrip :=
  ⟨fun _ => decode_encode, fun _ _ => wellFormed_and_encode_of_decode⟩

/-- Settles O3: the decoder evaluated on each byte. -/
theorem specBytesDecode : Obligations.SpecBytesDecode := by
  unfold Obligations.SpecBytesDecode
  decide

end Sys2Proof.Machine

/-! PROOFS. The completion of each command (R104, 41_block_codec.md, 42_key_material.md): when it answers a next state,
which one, and where it stops otherwise. -/

namespace Sys2Proof.Machine

section Completion
variable {i : Instr} {s t : State}

/-! One rule for all completions: a command with its operands in range reads its operand bytes and then writes. -/

theorem exec_of_defined (h : OperandsDefined i s) :
    exec i s = require (operandLocs i s) s (.next (retire (applied i s))) := by
  cases i with
  | nop | gen | movdk | movkd => rfl
  | enc | dec | fromPw | rkey r => exact if_pos h

theorem exec_of_not_defined (h : ¬ OperandsDefined i s) : exec i s = .fault .notIssuable := by
  cases i with
  | nop | gen | movdk | movkd => exact absurd trivial h
  | enc | dec | fromPw | rkey r => exact if_neg h

theorem exec_of_written (h : OperandsDefined i s) (hw : OperandsWritten i s) :
    exec i s = .next (retire (applied i s)) := by
  rw [exec_of_defined h, require_of_written hw]

theorem exec_of_not_written (h : OperandsDefined i s) (hw : ¬ OperandsWritten i s) :
    ∃ l ∈ operandLocs i s, s.written l = false ∧ exec i s = .fault (.unwritten l) := by
  rw [exec_of_defined h]
  exact (require_cases _ _ _).resolve_left fun hall => hw hall.1

theorem exec_eq_next_iff :
    exec i s = .next t ↔ OperandsDefined i s ∧ OperandsWritten i s ∧ t = retire (applied i s) := by
  by_cases h : OperandsDefined i s
  · rw [exec_of_defined h, require_eq_next, Host.Outcome.next.injEq, eq_comm (b := t), and_iff_right h]
    rfl
  · simp [exec_of_not_defined h, h]

end Completion

/-- Settles O36: the two ends of `exec` on operands in range. -/
theorem unwrittenOperandsDecideCompletion : Obligations.UnwrittenOperandsDecideCompletion := fun _ _ h =>
  ⟨fun hw => ⟨_, exec_of_written h hw⟩, exec_of_not_written h⟩

/-! Each command on written operands. The state a completion leaves, as a record. -/

theorem retire_setDataBytes (B : Block) (s : State) :
    retire (setDataBytes B s) = { s with data := { bytes := B, wr := s.data.wr }, pend := none, busy := false } := rfl

theorem retire_loadData (B : Block) (s : State) :
    retire (loadData B s) =
      { s with data := { bytes := B, wr := Vector.replicate 16 true }, rsize := 16, pend := none, busy := false } := rfl

theorem retire_loadKey (B : Block) (s : State) :
    retire (loadKey B s) =
      { s with key := { bytes := B, wr := Vector.replicate 16 true }, pend := none, busy := false } := rfl

theorem operandsWritten_nop (s : State) : OperandsWritten .nop s := by simp [OperandsWritten, operandLocs]

/-- Settles O28: NOP reads nothing and applies nothing. -/
theorem nopCompletes : Obligations.NopCompletes := fun s =>
  exec_of_written (i := .nop) trivial (operandsWritten_nop s)

/-- Settles O29: ENC's completion, with the closed form of Encrypt below RSIZE. -/
theorem encCompletes : Obligations.EncCompletes := by
  intro s hmin hmax hw
  have hexec := exec_enc_of_written ⟨hmin, hmax⟩ hw
  rw [applied, retire_setDataBytes] at hexec
  refine ⟨_, hexec, fun i => ?_⟩
  split_ifs with hi
  · rw [← byteAt_fin, byteAt_encrypt hmax _ _ hi]
  · exact encrypt_get_of_le i.isLt (by omega) _ _

/-- Settles O30: DEC's completion, with the closed form of Decrypt below RSIZE. -/
theorem decCompletes : Obligations.DecCompletes := by
  intro s hmin hmax hw
  have hexec := exec_dec_of_written ⟨hmin, hmax⟩ hw
  rw [applied, retire_setDataBytes] at hexec
  refine ⟨_, hexec, fun i => ?_⟩
  split_ifs with hi
  · rw [← byteAt_fin, byteAt_decrypt hmax _ _ hi, byteAt_fin s.key.bytes]
  · exact decrypt_get_of_le i.isLt (by omega) _ _

/-- Settles O31: RKEY reads all of KEY, and its bytes are those of the round key. -/
theorem rkeyCompletes : Obligations.RkeyCompletes := by
  intro s r hr hw
  have hexec := exec_of_written (i := .rkey r) (Nat.lt_succ_of_le hr) (keyLocs_written.mpr hw)
  rw [applied, retire_loadData] at hexec
  exact ⟨_, hexec, fun i => roundKey_get s.key.bytes r.toNat i.isLt⟩

theorem operandsWritten_gen (s : State) : OperandsWritten .gen s := by simp [OperandsWritten, operandLocs]

theorem drawBlock_get (n : Nat) (i : Fin 16) : (drawBlock n)[i] = Config.draw (n + i.val) := by simp [drawBlock]

/-- Settles O32: GEN reads nothing, and its block is the draws in order. -/
theorem genCompletes : Obligations.GenCompletes := by
  intro s
  have hexec := exec_of_written (i := .gen) trivial (operandsWritten_gen s)
  rw [applied, retire_loadData, takeDraws] at hexec
  exact ⟨_, hexec, drawBlock_get s.drawn⟩

/-- Settles O33: FROMPW reads the password, and its block is the closed form of Encode. -/
theorem fromPwCompletes : Obligations.FromPwCompletes := by
  intro s hmin hmax hw
  have hexec := exec_of_written (i := .fromPw) ⟨hmin, hmax⟩ (pwdLocs_written.mpr hw)
  rw [applied, retire_loadKey] at hexec
  exact ⟨_, hexec, fun i => encodePasswordRepeats _ _ i hmin hmax⟩

/-- Settles O34: MOVDK reads all of DATA. -/
theorem movdkCompletes : Obligations.MovdkCompletes := fun _ hw =>
  (exec_of_written (i := .movdk) trivial (dataLocs_written.mpr hw)).trans (congrArg _ (retire_loadKey _ _))

/-- Settles O35: MOVKD reads all of KEY. -/
theorem movkdCompletes : Obligations.MovkdCompletes := fun _ hw =>
  (exec_of_written (i := .movkd) trivial (keyLocs_written.mpr hw)).trans (congrArg _ (retire_loadData _ _))

/-! The lanes below n of a transform depend on the lanes below n of its arguments (R127, R129, R132). -/

section ActiveLanes
variable {B B' K K' : Block} {n : Nat} (hn : n ≤ 16) (h : ∀ i : Fin 16, i.val < n → B[i] = B'[i] ∧ K[i] = K'[i])
include hn h

theorem byteAt_congr_of_lt {i : Nat} (hi : i < n) : byteAt B i = byteAt B' i ∧ byteAt K i = byteAt K' i := by
  have hi16 : i < 16 := by omega
  rw [byteAt_of_lt B hi16, byteAt_of_lt B' hi16, byteAt_of_lt K hi16, byteAt_of_lt K' hi16]
  exact h ⟨i, hi16⟩ hi

theorem encrypt_get_congr {i : Fin 16} (hi : i.val < n) : (encrypt B K n)[i] = (encrypt B' K' n)[i] := by
  obtain ⟨hB, hK⟩ := byteAt_congr_of_lt hn h (pairIndex_lt hi)
  rw [← byteAt_fin, ← byteAt_fin, byteAt_encrypt hn B K hi, byteAt_encrypt hn B' K' hi, hB, hK]

theorem decrypt_get_congr {i : Fin 16} (hi : i.val < n) : (decrypt B K n)[i] = (decrypt B' K' n)[i] := by
  obtain ⟨hB, -⟩ := byteAt_congr_of_lt hn h (pairIndex_lt hi)
  obtain ⟨-, hK⟩ := byteAt_congr_of_lt hn h hi
  rw [← byteAt_fin, ← byteAt_fin, byteAt_decrypt hn B K hi, byteAt_decrypt hn B' K' hi, hB, hK]

end ActiveLanes

/-- Settles O26: no round touches a lane at or above n, and the closed forms name lanes below n only. -/
theorem inactiveLanesAreUntouched : Obligations.InactiveLanesAreUntouched := fun B _ K _ _ _ hn =>
  ⟨fun i hi => ⟨encrypt_get_of_le i.isLt hi B K, decrypt_get_of_le i.isLt hi B K⟩,
    fun h _ hi => ⟨encrypt_get_congr hn h hi, decrypt_get_congr hn h hi⟩⟩

end Sys2Proof.Machine

/-! PROOFS. What a completion reads and what it leaves alone (R107, R109): the frame of each command over the window,
and that its writes are a function of the operand registers. -/

namespace Sys2Proof.Machine

/-! No command touches the host or the turns to come, and only GEN draws. -/

@[simp] theorem applied_program (i : Instr) (s : State) : (applied i s).program = s.program := by
  cases i <;> simp [applied]
@[simp] theorem applied_hpc (i : Instr) (s : State) : (applied i s).hpc = s.hpc := by cases i <;> simp [applied]
@[simp] theorem applied_vars (i : Instr) (s : State) : (applied i s).vars = s.vars := by cases i <;> simp [applied]
@[simp] theorem applied_sched (i : Instr) (s : State) : (applied i s).sched = s.sched := by cases i <;> simp [applied]
@[simp] theorem applied_gap (i : Instr) (s : State) : (applied i s).gap = s.gap := by cases i <;> simp [applied]
@[simp] theorem applied_gaps (i : Instr) (s : State) : (applied i s).gaps = s.gaps := by cases i <;> simp [applied]
@[simp] theorem applied_drawn (i : Instr) (s : State) :
    (applied i s).drawn = s.drawn + if i = .gen then 16 else 0 := by
  cases i <;> simp [applied]

/-! Which reads a write of DATA or of KEY can change (R54). -/

theorem readReg_retire_setDataBytes {r : Reg} (hr : r ≠ .status) {B : Block} {s : State}
    (hB : ∀ k : Fin 16, r = .data k → B[k] = s.data.bytes[k]) :
    readReg r (retire (setDataBytes B s)) = readReg r s := by
  cases r with
  | data k =>
    have hk : B[k.val] = s.data.bytes[k.val] := hB k rfl
    rw [readReg_data, readReg_data, retire_data, setDataBytes_data, hk]
  | status => exact absurd rfl hr
  | key _ | pwd _ | rsize | pwlen | cmd | errcode | reserved _ => rfl

theorem readReg_retire_loadData {r : Reg} (hdata : ∀ k, r ≠ .data k) (hrsize : r ≠ .rsize) (hr : r ≠ .status)
    (B : Block) (s : State) : readReg r (retire (loadData B s)) = readReg r s := by
  cases r with
  | data k => exact absurd rfl (hdata k)
  | rsize => exact absurd rfl hrsize
  | status => exact absurd rfl hr
  | key _ | pwd _ | pwlen | cmd | errcode | reserved _ => rfl

theorem readReg_retire_loadKey {r : Reg} (hkey : ∀ k, r ≠ .key k) (hr : r ≠ .status) (B : Block) (s : State) :
    readReg r (retire (loadKey B s)) = readReg r s := by
  cases r with
  | key k => exact absurd rfl (hkey k)
  | status => exact absurd rfl hr
  | data _ | pwd _ | rsize | pwlen | cmd | errcode | reserved _ => rfl

theorem readReg_retire {r : Reg} (hr : r ≠ .status) (s : State) : readReg r (retire s) = readReg r s := by
  cases r with
  | status => exact absurd rfl hr
  | data _ | key _ | pwd _ | rsize | pwlen | cmd | errcode | reserved _ => rfl

theorem readReg_takeDraws (r : Reg) (n : Nat) (s : State) : readReg r (takeDraws n s) = readReg r s := by
  cases r <;> rfl

/-! The offsets of the window, by the register there (R51). -/

section Offsets
variable {off : Offset}

theorem ofOffset_ne_of_ne_offset {r : Reg} (h : off ≠ r.offset) : Reg.ofOffset off ≠ r :=
  fun hr => h (eq_offset_of_ofOffset hr)

theorem toNat_eq_of_ofOffset_data {k : Fin 16} (h : Reg.ofOffset off = .data k) : off.toNat = k.val := by
  rw [eq_offset_of_ofOffset h, Reg.offset, BitVec.toNat_ofNat]
  omega

theorem toNat_eq_of_ofOffset_key {k : Fin 16} (h : Reg.ofOffset off = .key k) : off.toNat = 0x10 + k.val := by
  rw [eq_offset_of_ofOffset h, Reg.offset, BitVec.toNat_ofNat]
  omega

theorem ofOffset_ne_data (h : 0x10 ≤ off) (k : Fin 16) : Reg.ofOffset off ≠ .data k := by
  intro hr
  have hk := toNat_eq_of_ofOffset_data hr
  bv_omega

theorem ofOffset_ne_key (h : off < 0x10 ∨ 0x20 ≤ off) (k : Fin 16) : Reg.ofOffset off ≠ .key k := by
  intro hr
  have hk := toNat_eq_of_ofOffset_key hr
  bv_omega

end Offsets

/-- Settles O38: below RSIZE only, ENC and DEC change a byte of DATA. -/
theorem codecFrame : Obligations.CodecFrame := by
  intro i s t hi h
  obtain rfl := exec_eq_next_applied h
  refine ⟨fun off hsize hoff => ?_, by obtain rfl | rfl := hi <;> simp [applied]⟩
  have hlane : ∀ k : Fin 16, Reg.ofOffset off = .data k → s.rsize.toNat ≤ k.val := fun k hk => by
    rwa [← toNat_eq_of_ofOffset_data hk]
  have hstatus : Reg.ofOffset off ≠ .status := ofOffset_ne_of_ne_offset hoff
  obtain rfl | rfl := hi
  · exact readReg_retire_setDataBytes hstatus fun k hk => encrypt_get_of_le k.isLt (hlane k hk) _ _
  · exact readReg_retire_setDataBytes hstatus fun k hk => decrypt_get_of_le k.isLt (hlane k hk) _ _

/-- Settles O39: a write of all of DATA with RSIZE is read at their offsets only. -/
theorem dataLoadFrame : Obligations.DataLoadFrame := by
  intro i s t hi h
  obtain rfl := exec_eq_next_applied h
  refine ⟨fun off hlow hrsize hstatus => ?_, by simp⟩
  have hread (B : Block) (u : State) :
      readReg (Reg.ofOffset off) (retire (loadData B u)) = readReg (Reg.ofOffset off) u :=
    readReg_retire_loadData (ofOffset_ne_data hlow) (ofOffset_ne_of_ne_offset hrsize)
      (ofOffset_ne_of_ne_offset hstatus) B u
  obtain ⟨r, rfl⟩ | rfl | rfl := hi
  · exact hread _ s
  · exact (hread _ _).trans (readReg_takeDraws _ 16 s)
  · exact hread _ s

/-- Settles O40: a write of all of KEY is read at its offsets only; NOP's end at STATUS only. -/
theorem keyLoadFrame : Obligations.KeyLoadFrame := by
  intro i s t hi h
  obtain rfl := exec_eq_next_applied h
  refine ⟨fun off hoff hstatus => ?_, by obtain rfl | rfl | rfl := hi <;> simp⟩
  have hstatus : Reg.ofOffset off ≠ .status := ofOffset_ne_of_ne_offset hstatus
  obtain rfl | rfl | rfl := hi
  · exact readReg_retire_loadKey (ofOffset_ne_key (by simpa using hoff)) hstatus _ s
  · exact readReg_retire_loadKey (ofOffset_ne_key (by simpa using hoff)) hstatus _ s
  · exact readReg_retire hstatus s

/-! The operand registers decide a completion (R107). -/

/-- Where the unwritten check stops does not depend on what would come after it. -/
theorem require_next_eq_fault {α β : Type} {ls : List Loc} {s : State} {a : α} {b : β} {f : Fault}
    (h : require ls s (.next a) = .fault f) : require ls s (.next b) = .fault f := by
  cases hfind : ls.find? fun l => !s.written l with
  | none => simp [require, hfind] at h
  | some m => simpa [require, hfind] using h

section Sizes
variable {s t : State} (i : Instr) (hrsize : s.rsize = t.rsize) (hpwlen : s.pwlen = t.pwlen)
include hrsize hpwlen

/-- RSIZE and PWLEN say which bytes a command reads, and whether its operands are in range. -/
theorem operandLocs_congr : operandLocs i s = operandLocs i t := by
  cases i <;> simp only [operandLocs, hrsize, hpwlen]

theorem operandsDefined_congr : OperandsDefined i s ↔ OperandsDefined i t := by
  cases i <;> simp only [OperandsDefined, hrsize, hpwlen]

end Sizes

/-- Two states agree on the operand registers. -/
def SameOperands (s t : State) : Prop :=
  s.data = t.data ∧ s.key = t.key ∧ s.pwd = t.pwd ∧ s.rsize = t.rsize ∧ s.pwlen = t.pwlen

section SameOperands
variable {s t : State} (h : SameOperands s t)
include h

theorem SameOperands.written_eq (l : Loc) : s.written l = t.written l := by
  obtain ⟨hdata, hkey, hpwd, -, -⟩ := h
  cases l <;> simp [hdata, hkey, hpwd]

theorem SameOperands.operandLocs_eq (i : Instr) : operandLocs i s = operandLocs i t := by
  obtain ⟨-, -, -, hrsize, hpwlen⟩ := h
  exact operandLocs_congr i hrsize hpwlen

theorem SameOperands.operandsDefined_iff (i : Instr) : OperandsDefined i s ↔ OperandsDefined i t := by
  obtain ⟨-, -, -, hrsize, hpwlen⟩ := h
  exact operandsDefined_congr i hrsize hpwlen

theorem SameOperands.operandsWritten_iff (i : Instr) : OperandsWritten i s ↔ OperandsWritten i t := by
  simp only [OperandsWritten, h.operandLocs_eq i, h.written_eq]

/-- GEN's block is drawn, not computed from a register. -/
theorem SameOperands.applied {i : Instr} (hi : i ≠ .gen) : SameOperands (applied i s) (applied i t) := by
  obtain ⟨hdata, hkey, hpwd, hrsize, hpwlen⟩ := h
  cases i with
  | gen => exact absurd rfl hi
  | nop | enc | dec | fromPw | movdk | movkd | rkey r =>
    simp [SameOperands, Machine.applied, hdata, hkey, hpwd, hrsize, hpwlen]

/-- A completion stops at the same place in both. -/
theorem SameOperands.exec_eq_fault {i : Instr} {f : Fault} (hf : exec i s = .fault f) : exec i t = .fault f := by
  by_cases hd : OperandsDefined i s
  · rw [exec_of_defined hd] at hf
    rw [exec_of_defined ((h.operandsDefined_iff i).mp hd), ← h.operandLocs_eq,
      ← require_congr fun l _ => h.written_eq l]
    exact require_next_eq_fault hf
  · rw [exec_of_not_defined hd] at hf
    rw [exec_of_not_defined ((h.operandsDefined_iff i).not.mp hd), hf]

end SameOperands

/-- Settles O41: both completions read the same operands and apply the same writes, or stop at the same operand. -/
theorem commandsAreFunctionsOfTheRegisters : Obligations.CommandsAreFunctionsOfTheRegisters := by
  refine ⟨fun i s t hi hdata hkey hpwd hrsize hpwlen => ?operands, fun s s' h k => ?draws⟩
  case operands =>
    have h : SameOperands s t := ⟨hdata, hkey, hpwd, hrsize, hpwlen⟩
    refine ⟨fun s' hs => ?_, fun f => h.exec_eq_fault⟩
    obtain ⟨hd, hw, rfl⟩ := exec_eq_next_iff.mp hs
    exact ⟨_, exec_of_written ((h.operandsDefined_iff i).mp hd) ((h.operandsWritten_iff i).mp hw), h.applied hi⟩
  case draws =>
    obtain rfl := exec_eq_next_applied h
    exact drawBlock_get s.drawn k

/-! ERR and ERRCODE are no operands (R103). -/

theorem applied_withError (i : Instr) (s : State) (e : Bool) (code : ErrCode) :
    applied i { s with err := e, errcode := code } = { applied i s with err := e, errcode := code } := by
  cases i <;> rfl

/-- Settles O13: neither the issue check nor the completion reads ERR or ERRCODE, and neither acceptance nor the
completion writes them. -/
theorem acceptanceIgnoresTheError : Obligations.AcceptanceIgnoresTheError := by
  refine fun s i e code => ⟨fun c hidle hd hc => ?accept, fun t h => ?complete⟩
  case accept =>
    exact memWrite_cmd_accept (s := { s with err := e, errcode := code }) hidle hd
      ((issueCheck_congr i rfl rfl rfl).trans hc)
  case complete =>
    obtain ⟨hd, hw, rfl⟩ := exec_eq_next_iff.mp h
    have hsame : SameOperands s { s with err := e, errcode := code } := ⟨rfl, rfl, rfl, rfl, rfl⟩
    rw [exec_of_written ((hsame.operandsDefined_iff i).mp hd) ((hsame.operandsWritten_iff i).mp hw), applied_withError]
    rfl

end Sys2Proof.Machine

/-! PROOFS. The accesses of the window (20_memory.md): everything a bus write can do, what a read keeps, and the
accesses while BUSY = 1. -/

namespace Sys2Proof.Machine

/-! Everything a bus write can do, with where it can do it (R55, R57, R100). -/

/-- What a write of `v` to `off` may make of `s`. The operand registers and PEND are written only while BUSY = 0. -/
inductive WriteEffect (off : Offset) (v : Byte) (s : State) : State → Prop where
  | keep : WriteEffect off v s s
  | raise (code : ErrCode) (hcode : code ≠ .noError) : WriteEffect off v s (raiseError code s)
  | clear : WriteEffect off v s (clearError s)
  | data (i : Fin 16) (hidle : s.busy = false) : WriteEffect off v s { s with data := s.data.write i v }
  | key (i : Fin 16) (hidle : s.busy = false) : WriteEffect off v s { s with key := s.key.write i v }
  | pwd (i : Fin 16) (hidle : s.busy = false) (hoff : off = (Reg.pwd i).offset) :
      WriteEffect off v s { s with pwd := s.pwd.write i v }
  | rsize (hidle : s.busy = false) : WriteEffect off v s { s with rsize := v.setWidth 5 }
  | pwlen (hidle : s.busy = false) (hoff : off = Reg.pwlen.offset) :
      WriteEffect off v s { s with pwlen := v.setWidth 5 }
  | accepted (i : Instr) (hidle : s.busy = false) (hoff : off = Reg.cmd.offset) (hd : decode v = .command i)
      (hc : issueCheck i s = .next .noError) : WriteEffect off v s (accept v s)

theorem offset_low_of_operand :
    (∀ i : Fin 16, (Reg.data i).offset.toNat ≤ 0x32) ∧ (∀ i : Fin 16, (Reg.key i).offset.toNat ≤ 0x32) ∧
      ∀ i : Fin 16, (Reg.pwd i).offset.toNat ≤ 0x32 := by decide

theorem memWrite_effect {off : Offset} {width : Nat} {v : Byte} {s t : State} (h : memWrite off width v s = .next t) :
    width = 1 ∧ WriteEffect off v s t := by
  obtain ⟨hwidth, ⟨-, -, rfl⟩ | ⟨hnot, hreg⟩⟩ := memWrite_eq_next.mp h
  · exact ⟨hwidth, .raise _ (by decide)⟩
  refine ⟨hwidth, ?_⟩
  have hidle {r : Reg} (hr : Reg.ofOffset off = r) (hlow : r.offset.toNat ≤ 0x32) : s.busy = false := by
    rw [eq_offset_of_ofOffset hr] at hnot
    simpa [hlow] using hnot
  obtain ⟨hdata, hkey, hpwd⟩ := offset_low_of_operand
  obtain ⟨i, hr, rfl⟩ | ⟨i, hr, rfl⟩ | ⟨i, hr, rfl⟩ | ⟨hr, rfl⟩ | ⟨hr, rfl⟩ | ⟨hr, hissue⟩ | ⟨-, -, rfl⟩ | rfl :=
    writeReg_eq_next hreg
  · exact .data i (hidle hr (hdata i))
  · exact .key i (hidle hr (hkey i))
  · exact .pwd i (hidle hr (hpwd i)) (eq_offset_of_ofOffset hr)
  · exact .rsize (hidle hr (by decide))
  · exact .pwlen (hidle hr (by decide)) (eq_offset_of_ofOffset hr)
  · obtain ⟨-, rfl⟩ | ⟨i, hd, hc, rfl⟩ | ⟨i, code, -, -, hcode, rfl⟩ := issue_eq_next.mp hissue
    · exact .raise _ (by decide)
    · exact .accepted i (hidle hr (by decide)) (eq_offset_of_ofOffset hr) hd hc
    · exact .raise code hcode
  · exact .clear
  · exact .keep

/-! While BUSY = 1 (R57). -/

/-- The pending command and the operands it will see are the same in both states. -/
def CommandKept (s t : State) : Prop :=
  t.data = s.data ∧ t.key = s.key ∧ t.pwd = s.pwd ∧ t.rsize = s.rsize ∧ t.pwlen = s.pwlen ∧ t.pend = s.pend ∧
    t.busy = s.busy

theorem CommandKept.busy_eq {s t : State} (h : CommandKept s t) : t.busy = s.busy := by
  obtain ⟨-, -, -, -, -, -, hbusy⟩ := h
  exact hbusy

theorem CommandKept.pend_eq {s t : State} (h : CommandKept s t) : t.pend = s.pend := by
  obtain ⟨-, -, -, -, -, hpend, -⟩ := h
  exact hpend

theorem WriteEffect.commandKept {off : Offset} {v : Byte} {s t : State} (h : WriteEffect off v s t)
    (hbusy : s.busy = true) : CommandKept s t := by
  have hnot : ¬ s.busy = false := by simp [hbusy]
  cases h with
  | keep | raise | clear => exact ⟨rfl, rfl, rfl, rfl, rfl, rfl, rfl⟩
  | data _ hidle | key _ hidle | pwd _ hidle | rsize hidle | pwlen hidle | accepted _ hidle => exact absurd hidle hnot

/-- Settles O8: the reads and writes by offset, and the frame of a write while busy. -/
theorem busyAccesses : Obligations.BusyAccesses := by
  intro s hbusy
  refine ⟨fun off ho => memRead_busy_low hbusy (BitVec.le_def.mp ho), memRead_cmd s, ?status, ?_, ?_, ?_, ?_, ?_,
    fun _ => memRead_reserved s, fun off v ho => memWrite_busy_low hbusy (BitVec.le_def.mp ho) v,
    fun v => memWrite_status v s, fun _ v => memWrite_readOnly s v, fun off v t h => ?frame⟩
  case status =>
    rw [memRead_status, hbusy]
    rfl
  case frame =>
    obtain ⟨-, heff⟩ := memWrite_effect h
    obtain ⟨hdata, hkey, hpwd, hrsize, hpwlen, hpend, -⟩ := heff.commandKept hbusy
    exact ⟨hdata, hkey, hpwd, hrsize, hpwlen, hpend⟩
  all_goals exact memRead_errcode

/-! Accesses of any width and reads of any offset (R53, R60). -/

theorem memRead_wide {off : Offset} {width : Nat} {s : State} (h : width ≠ 1) :
    memRead off width s = .refused .wideAccess := if_pos h

theorem memWrite_wide {off : Offset} {width : Nat} {v : Byte} {s : State} (h : width ≠ 1) :
    memWrite off width v s = .refused .wideAccess := if_pos h

/-- Settles O9: the width is tested first. -/
theorem wideAccessIsRefused : Obligations.WideAccessIsRefused := fun _ _ _ _ h => ⟨memRead_wide h, memWrite_wide h⟩

/-- Settles O11: a read that is a draw takes it, while busy; any other read answers the state as it was. -/
theorem readsChangeNoRegister : Obligations.ReadsChangeNoRegister := by
  intro off width b s t h
  obtain ⟨-, ⟨hbusy, -, -, rfl⟩ | ⟨-, -, rfl⟩⟩ := memRead_eq_next.mp h
  · exact ⟨rfl, fun hidle => absurd hidle (by simp [hbusy])⟩
  · exact ⟨rfl, fun _ => rfl⟩

/-! A byte written while BUSY = 0, read back (R54, R55). -/

section ReadAfterWrite
variable {s t : State} {i : Fin 16} {v : Byte}

theorem readReg_data_write_same : readReg (.data i) { s with data := s.data.write i v } = .next v := by
  rw [readReg_data]
  simp

theorem readReg_key_write_same : readReg (.key i) { s with key := s.key.write i v } = .next v := by
  rw [readReg_key]
  simp

theorem readReg_pwd_write_same : readReg (.pwd i) { s with pwd := s.pwd.write i v } = .next v := by
  rw [readReg_pwd]
  simp

/-- RSIZE and PWLEN keep the low five bits. -/
theorem zeroExtend_setWidth_five (v : Byte) : (v.setWidth 5).zeroExtend 8 = v &&& 0x1F := by
  apply BitVec.eq_of_toNat_eq
  have hmask : v.toNat &&& 0x1F = v.toNat % 2 ^ 5 := Nat.and_two_pow_sub_one_eq_mod v.toNat 5
  simp [hmask]
  omega

/-- The window's operand registers: the three arrays below 0x30, then RSIZE and PWLEN (R51). -/
theorem ofOffset_operand_cases : ∀ off : Offset, off ≤ 0x31 →
    (off < 0x30 ∧ ∃ i, Reg.ofOffset off = .data i ∨ Reg.ofOffset off = .key i ∨ Reg.ofOffset off = .pwd i) ∨
      off = 0x30 ∨ off = 0x31 := by decide

theorem writeReg_operand {off : Offset} (h : off ≤ 0x31) (v : Byte) (s : State) :
    ∃ t, writeReg (Reg.ofOffset off) v s = .next t ∧ t.busy = s.busy ∧
      readReg (Reg.ofOffset off) t = .next (if off < 0x30 then v else v &&& 0x1F) := by
  obtain ⟨hlow, i, hr | hr | hr⟩ | rfl | rfl := ofOffset_operand_cases off h
  · rw [hr, if_pos hlow]
    exact ⟨_, rfl, rfl, readReg_data_write_same⟩
  · rw [hr, if_pos hlow]
    exact ⟨_, rfl, rfl, readReg_key_write_same⟩
  · rw [hr, if_pos hlow]
    exact ⟨_, rfl, rfl, readReg_pwd_write_same⟩
  · exact ⟨_, rfl, rfl, congrArg Host.Outcome.next (zeroExtend_setWidth_five v)⟩
  · exact ⟨_, rfl, rfl, congrArg Host.Outcome.next (zeroExtend_setWidth_five v)⟩

theorem RegArray.write_get_ne {j : Fin 16} (h : j ≠ i) (a : RegArray) (v : Byte) :
    (a.write i v).wr[j.val] = a.wr[j.val] ∧ (a.write i v).bytes[j.val] = a.bytes[j.val] := by
  have hval : i.val ≠ j.val := fun e => h (Fin.ext e.symm)
  exact ⟨Vector.getElem_set_ne i.isLt j.isLt hval, Vector.getElem_set_ne i.isLt j.isLt hval⟩

/-- A write of an operand register is read at that register only. -/
theorem readReg_writeReg_ne {r r' : Reg} (hne : r' ≠ r) (hcmd : r ≠ .cmd) (hstatus : r ≠ .status)
    (h : writeReg r v s = .next t) : readReg r' t = readReg r' s := by
  obtain ⟨i, rfl, rfl⟩ | ⟨i, rfl, rfl⟩ | ⟨i, rfl, rfl⟩ | ⟨rfl, rfl⟩ | ⟨rfl, rfl⟩ | ⟨hr, -⟩ | ⟨hr, -, -⟩ | rfl :=
    writeReg_eq_next h
  · cases r' with
    | data j =>
      obtain ⟨hwr, hbyte⟩ := RegArray.write_get_ne (fun e => hne (congrArg Reg.data e)) s.data v
      rw [readReg_data, readReg_data, hwr, hbyte]
    | _ => rfl
  · cases r' with
    | key j =>
      obtain ⟨hwr, hbyte⟩ := RegArray.write_get_ne (fun e => hne (congrArg Reg.key e)) s.key v
      rw [readReg_key, readReg_key, hwr, hbyte]
    | _ => rfl
  · cases r' with
    | pwd j =>
      obtain ⟨hwr, hbyte⟩ := RegArray.write_get_ne (fun e => hne (congrArg Reg.pwd e)) s.pwd v
      rw [readReg_pwd, readReg_pwd, hwr, hbyte]
    | _ => rfl
  · cases r' with
    | rsize => exact absurd rfl hne
    | _ => rfl
  · cases r' with
    | pwlen => exact absurd rfl hne
    | _ => rfl
  · exact absurd hr hcmd
  · exact absurd hr hstatus
  · rfl

end ReadAfterWrite

theorem ofOffset_ne_control_of_le : ∀ off : Offset, off ≤ 0x31 →
    Reg.ofOffset off ≠ .cmd ∧ Reg.ofOffset off ≠ .status := by decide

/-- Settles O10: the register at the offset reads back, and no other register reads differently. -/
theorem writeThenReadReturnsTheByte : Obligations.WriteThenReadReturnsTheByte := by
  intro s off v hidle ho
  obtain ⟨t, hwrite, hbusy, hread⟩ := writeReg_operand ho v s
  obtain ⟨hcmd, hstatus⟩ := ofOffset_ne_control_of_le off ho
  refine ⟨t, (memWrite_idle hidle off v).trans hwrite, memRead_idle_of_readReg (hbusy.trans hidle) hread,
    fun off' hne => readReg_writeReg_ne ?_ hcmd hstatus hwrite⟩
  exact ofOffset_ne_of_ne_offset (by rwa [offset_ofOffset])

end Sys2Proof.Machine

/-! PROOFS. The machine (10_state.md, 40_command_execution.md): everything a step can do, the life of a pending command,
who writes the password, and the invariant. -/

namespace Sys2Proof.Machine

/-! Everything a host operation, and then a step, can do (R62, R104, R200). -/

/-- A host turn that writes nothing: it moves the host, keeps a byte in a variable, and takes draws. -/
def HostLocal (s t : State) : Prop :=
  t = { s with drawn := t.drawn, hpc := t.hpc, vars := t.vars } ∧ (Vars.wf s.vars = true → Vars.wf t.vars = true)

theorem hostOp_effect {o : HostOp} {s t : State} (h : hostOp o s = .next t) :
    (∃ off v u, o = .wr off 1 v ∧ WriteEffect off v s u ∧ t = advanceHost u) ∨ HostLocal s t := by
  cases o with
  | wr off width v =>
    obtain ⟨u, hu, rfl⟩ := hostOp_wr_eq_next.mp h
    obtain ⟨rfl, heff⟩ := memWrite_effect hu
    exact .inl ⟨off, v, u, rfl, heff, rfl⟩
  | rd off width dst =>
    obtain ⟨b, u, hu, rfl⟩ := hostOp_rd_eq_next.mp h
    obtain ⟨-, ⟨-, -, -, rfl⟩ | ⟨-, -, rfl⟩⟩ := memRead_eq_next.mp hu
    · exact .inr ⟨rfl, Vars.set_wf dst b s.vars⟩
    · exact .inr ⟨rfl, Vars.set_wf dst b u.vars⟩
  | bnz x bit target =>
    rw [hostOp_bnz, Host.Outcome.next.injEq] at h
    subst h
    refine .inr ?_
    split <;> exact ⟨rfl, id⟩
  | halt =>
    obtain rfl := Host.Outcome.next.inj h
    exact .inr ⟨rfl, id⟩

/-- What a step may make of `s`, by whose turn it is. -/
inductive StepEffect (s : State) : State → Prop where
  | quiet (t : State) (hturn : nextTurn s = .host) (hlocal : HostLocal (dropTurn s) t) : StepEffect s t
  | write (off : Offset) (v : Byte) (u : State) (hnext : hostNext (.wr off 1 v) s)
      (heff : WriteEffect off v (dropTurn s) u) : StepEffect s (advanceHost u)
  | idle (hturn : nextTurn s = .core) (hpend : s.pend = none) : StepEffect s (dropTurn s)
  | complete (c : Byte) (i : Instr) (hturn : nextTurn s = .core) (hpend : s.pend = some c)
      (hd : decode c = .command i) : StepEffect s (retire (applied i (dropTurn s)))
  | reset (hturn : nextTurn s = .reset) : StepEffect s (coreReset (dropTurn s))

theorem step_effect {s t : State} (h : step s = .next t) : StepEffect s t := by
  obtain ⟨hturn, -, rfl⟩ | ⟨o, hnext, hop⟩ | ⟨hturn, hcore⟩ | ⟨hturn, rfl⟩ := step_eq_next.mp h
  · exact .quiet _ hturn ⟨rfl, id⟩
  · obtain ⟨off, v, u, rfl, heff, rfl⟩ | hlocal := hostOp_effect hop
    · exact .write off v u hnext heff
    · exact .quiet t hnext.1 hlocal
  · obtain ⟨hpend, rfl⟩ | ⟨c, i, hpend, hd, hexec⟩ := coreTurn_eq_next.mp hcore
    · exact .idle hturn hpend
    · obtain rfl := exec_eq_next_applied hexec
      exact .complete c i hturn hpend hd
  · exact .reset hturn

/-! What each effect keeps. -/

section Kept
variable {s t : State}

theorem HostLocal.commandKept (h : HostLocal s t) : CommandKept s t := by
  obtain ⟨ht, -⟩ := h
  rw [ht]
  exact ⟨rfl, rfl, rfl, rfl, rfl, rfl, rfl⟩

theorem HostLocal.error_eq (h : HostLocal s t) : t.err = s.err ∧ t.errcode = s.errcode := by
  obtain ⟨ht, -⟩ := h
  rw [ht]
  exact ⟨rfl, rfl⟩

variable {off : Offset} {v : Byte}

theorem WriteEffect.busy_eq_or_accept (h : WriteEffect off v s t) :
    t.busy = s.busy ∨ ∃ i, off = Reg.cmd.offset ∧ decode v = .command i ∧ t = accept v s := by
  cases h with
  | keep | raise | clear | data | key | pwd | rsize | pwlen => exact .inl rfl
  | accepted i _ hoff hd => exact .inr ⟨i, hoff, hd, rfl⟩

theorem WriteEffect.pwd_eq_or_idle (h : WriteEffect off v s t) :
    t.pwd = s.pwd ∨ ∃ i, off = (Reg.pwd i).offset ∧ s.busy = false := by
  cases h with
  | keep | raise | clear | data | key | rsize | pwlen | accepted => exact .inl rfl
  | pwd i hidle hoff => exact .inr ⟨i, hoff, hidle⟩

theorem WriteEffect.pwlen_eq_or_idle (h : WriteEffect off v s t) :
    t.pwlen = s.pwlen ∨ off = Reg.pwlen.offset ∧ s.busy = false := by
  cases h with
  | keep | raise | clear | data | key | pwd | rsize | accepted => exact .inl rfl
  | pwlen hidle hoff => exact .inr ⟨hoff, hidle⟩

end Kept

/-- A host turn keeps a pending command and its operands (R57). -/
theorem step_host_commandKept {s t : State} (hbusy : s.busy = true) (hturn : nextTurn s = .host)
    (h : step s = .next t) : CommandKept s t := by
  cases step_effect h with
  | quiet t _ hlocal => exact hlocal.commandKept
  | write off v u _ heff => exact heff.commandKept hbusy
  | idle hcore | complete _ _ hcore | reset hcore => rw [hturn] at hcore; cases hcore

/-- Settles O16: of all effects of a step, only an acceptance raises BUSY; a host turn does not lower it. -/
theorem busyFollowsTheLifecycle : Obligations.BusyFollowsTheLifecycle := by
  intro s t h
  refine ⟨fun hs ht => ?rise, fun hs ht => ?fall⟩
  case rise =>
    cases step_effect h with
    | quiet t hturn hlocal =>
      rw [hlocal.commandKept.busy_eq, dropTurn_busy, hs] at ht
      cases ht
    | write off v u hnext heff =>
      obtain hbusy | ⟨i, rfl, hd, rfl⟩ := heff.busy_eq_or_accept
      · rw [advanceHost_busy, hbusy, dropTurn_busy, hs] at ht
        cases ht
      · exact ⟨v, i, hnext, hd, rfl⟩
    | idle => exact absurd ht (by simp [hs])
    | complete | reset => exact absurd ht (by simp)
  case fall =>
    cases hturn : nextTurn s with
    | core => exact .inl rfl
    | reset => exact .inr rfl
    | host =>
      rw [(step_host_commandKept hs hturn h).busy_eq, hs] at ht
      cases ht

/-- Settles O17: a host turn keeps the command, BUSY among it. -/
theorem hostCannotTouchAPendingCommand : Obligations.HostCannotTouchAPendingCommand := by
  intro s t hbusy hturn h
  obtain ⟨hdata, hkey, hpwd, hrsize, hpwlen, hpend, hkept⟩ := step_host_commandKept hbusy hturn h
  exact ⟨hdata, hkey, hpwd, hrsize, hpwlen, hpend, hkept.trans hbusy⟩

/-- Settles O18: only a write to their own offsets while idle, and a reset, have an effect on PWD and PWLEN. -/
theorem onlyTheHostWritesThePassword : Obligations.OnlyTheHostWritesThePassword := by
  intro s t h
  cases step_effect h with
  | quiet t _ hlocal =>
    obtain ⟨-, -, hpwd, -, hpwlen, -, -⟩ := hlocal.commandKept
    exact ⟨fun hne => absurd hpwd hne, fun hne => absurd hpwlen hne⟩
  | write off v u hnext heff =>
    refine ⟨fun hne => .inr ?_, fun hne => .inr ?_⟩
    · obtain ⟨i, rfl, hidle⟩ := heff.pwd_eq_or_idle.resolve_left hne
      exact ⟨i, v, hnext, hidle⟩
    · obtain ⟨rfl, hidle⟩ := heff.pwlen_eq_or_idle.resolve_left hne
      exact ⟨v, hnext, hidle⟩
  | idle => exact ⟨fun hne => absurd rfl hne, fun hne => absurd rfl hne⟩
  | complete c i =>
    exact ⟨fun hne => absurd (applied_pwd i (dropTurn s)) hne, fun hne => absurd (applied_pwlen i (dropTurn s)) hne⟩
  | reset hturn => exact ⟨fun _ => .inl hturn, fun _ => .inl hturn⟩

/-! The invariant. -/

section Inv
variable {s t : State}

theorem pendOk_of_pend_none (h : s.pend = none) : s.PendOk := fun c hc => by
  rw [h] at hc
  cases hc

theorem pend_none_of_idle (h : s.Inv) (hidle : s.busy = false) : s.pend = none := by
  have hsome := h.busy_iff_pend
  rw [hidle] at hsome
  exact Option.isNone_iff_eq_none.mp (by simpa using hsome)

/-- The issue check of a pending command reads only what `CommandKept` keeps. -/
theorem inv_of_commandKept (h : s.Inv) (hkept : CommandKept s t) (herr : t.err = true ↔ t.errcode ≠ .noError)
    (hvars : Vars.wf t.vars = true) : t.Inv := by
  obtain ⟨-, -, hpwd, hrsize, hpwlen, hpend, hbusy⟩ := hkept
  refine ⟨by rw [hbusy, hpend, h.busy_iff_pend], herr, fun c hc => ?_, hvars⟩
  obtain ⟨i, hd, hcheck⟩ := h.pend_ok c (hpend ▸ hc)
  exact ⟨i, hd, (issueCheck_congr i hpwd hrsize hpwlen).trans hcheck⟩

theorem inv_dropTurn (h : s.Inv) : (dropTurn s).Inv :=
  inv_of_commandKept h ⟨rfl, rfl, rfl, rfl, rfl, rfl, rfl⟩ h.err_iff_code h.vars_wf

theorem inv_advanceHost (h : s.Inv) : (advanceHost s).Inv :=
  inv_of_commandKept h ⟨rfl, rfl, rfl, rfl, rfl, rfl, rfl⟩ h.err_iff_code h.vars_wf

theorem inv_raiseError (h : s.Inv) {code : ErrCode} (hcode : code ≠ .noError) : (raiseError code s).Inv := by
  refine inv_of_commandKept h ⟨rfl, rfl, rfl, rfl, rfl, rfl, rfl⟩ ⟨fun _ => ?_, fun _ => rfl⟩ h.vars_wf
  rw [raiseError_errcode]
  split
  · exact h.err_iff_code.mp ‹_›
  · exact hcode

theorem inv_clearError (h : s.Inv) : (clearError s).Inv :=
  inv_of_commandKept h ⟨rfl, rfl, rfl, rfl, rfl, rfl, rfl⟩ (by simp) h.vars_wf

/-- With nothing pending, an operand register may hold anything; an accepted command has just passed its check. -/
theorem inv_of_writeEffect {off : Offset} {v : Byte} (h : s.Inv) (heff : WriteEffect off v s t) : t.Inv := by
  cases heff with
  | keep => exact h
  | raise code hcode => exact inv_raiseError h hcode
  | clear => exact inv_clearError h
  | data _ hidle | key _ hidle | pwd _ hidle | rsize hidle | pwlen hidle =>
    have hpend := pend_none_of_idle h hidle
    exact ⟨h.busy_iff_pend, h.err_iff_code, pendOk_of_pend_none hpend, h.vars_wf⟩
  | accepted i _ _ hd hcheck =>
    refine ⟨rfl, h.err_iff_code, fun c hc => ⟨i, ?_, ?_⟩, h.vars_wf⟩
    · obtain rfl := Option.some.inj hc
      exact hd
    · exact (issueCheck_congr i rfl rfl rfl).trans hcheck

theorem inv_of_hostLocal (h : s.Inv) (hlocal : HostLocal s t) : t.Inv := by
  obtain ⟨herr, hcode⟩ := hlocal.error_eq
  exact inv_of_commandKept h hlocal.commandKept (by rw [herr, hcode, h.err_iff_code]) (hlocal.2 h.vars_wf)

theorem inv_retire_applied (h : s.Inv) (i : Instr) : (retire (applied i s)).Inv := by
  refine ⟨rfl, ?_, pendOk_of_pend_none rfl, ?_⟩
  · simpa using h.err_iff_code
  · simpa using h.vars_wf

theorem inv_coreReset (h : s.Inv) : (coreReset s).Inv :=
  ⟨rfl, by simp, pendOk_of_pend_none rfl, h.vars_wf⟩

theorem inv_of_step (h : s.Inv) (hstep : step s = .next t) : t.Inv := by
  have hdrop := inv_dropTurn h
  cases step_effect hstep with
  | quiet t _ hlocal => exact inv_of_hostLocal hdrop hlocal
  | write off v u _ heff => exact inv_advanceHost (inv_of_writeEffect hdrop heff)
  | idle => exact hdrop
  | complete c i => exact inv_retire_applied hdrop i
  | reset => exact inv_coreReset hdrop

end Inv

/-- Settles O46: nothing is pending and no error recorded after reset. -/
theorem resetSatisfiesInv : Obligations.ResetSatisfiesInv :=
  ⟨rfl, by decide, pendOk_of_pend_none rfl, rfl⟩

/-- Settles O47: each effect a step can have keeps the invariant. -/
theorem stepKeepsInv : Obligations.StepKeepsInv := fun _ _ => inv_of_step

end Sys2Proof.Machine

/-! PROOFS. Unwritten bytes are invisible (10_state.md, R34): each operation of the machine takes two states that differ
at most in unwritten bytes to the same stop, or to two such states. -/

namespace Sys2Proof.Machine

/-! Arrays that differ at most in unwritten bytes. -/

section Arrays
variable {a b : RegArray}

theorem RegArray.SameWritten.refl (a : RegArray) : a.SameWritten a := ⟨rfl, fun _ _ => rfl⟩

theorem RegArray.SameWritten.wr_get (h : a.SameWritten b) (i : Fin 16) : a.wr[i] = b.wr[i] := by rw [h.1]

/-- A write makes its byte the same in both, and no other byte written. -/
theorem RegArray.SameWritten.write (h : a.SameWritten b) (i : Fin 16) (v : Byte) :
    (a.write i v).SameWritten (b.write i v) := by
  obtain ⟨hwr, hbytes⟩ := h
  refine ⟨by simp [hwr], fun j hj => ?_⟩
  by_cases hij : j = i
  · subst hij
    simp
  · obtain ⟨hwrj, hbytej⟩ := RegArray.write_get_ne hij a v
    obtain ⟨-, hbytej'⟩ := RegArray.write_get_ne hij b v
    exact hbytej.trans ((hbytes j (hwrj.symm.trans hj)).trans hbytej'.symm)

theorem RegArray.SameWritten.bytes_eq (h : a.SameWritten b) (hw : ∀ i : Fin 16, a.wr[i] = true) : a.bytes = b.bytes :=
  Block.ext_fin fun i => h.2 i (hw i)

end Arrays

section States
variable {s t : State}

/-! States that differ at most in unwritten bytes. -/

theorem State.SameWritten.exists_arrays (h : s.SameWritten t) :
    ∃ d k p, s.data.SameWritten d ∧ s.key.SameWritten k ∧ s.pwd.SameWritten p ∧
      t = { s with data := d, key := k, pwd := p } := by
  obtain ⟨hdata, hkey, hpwd, ht⟩ := h
  exact ⟨t.data, t.key, t.pwd, hdata, hkey, hpwd, ht.symm⟩

theorem State.SameWritten.scalars_eq (h : s.SameWritten t) :
    s.rsize = t.rsize ∧ s.pwlen = t.pwlen ∧ s.busy = t.busy ∧ s.pend = t.pend ∧ s.drawn = t.drawn := by
  obtain ⟨d, k, p, -, -, -, rfl⟩ := h.exists_arrays
  exact ⟨rfl, rfl, rfl, rfl, rfl⟩

/-- `f` leaves the three arrays as they are, and does not look at them. -/
def ArrayBlind (f : State → State) : Prop :=
  ∀ (s : State) (d k p : RegArray),
    f { s with data := d, key := k, pwd := p } = { f s with data := d, key := k, pwd := p }

theorem State.SameWritten.map (h : s.SameWritten t) {f : State → State} (hf : ArrayBlind f) :
    (f s).SameWritten (f t) := by
  obtain ⟨d, k, p, hdata, hkey, hpwd, rfl⟩ := h.exists_arrays
  have hself : f s = { f s with data := s.data, key := s.key, pwd := s.pwd } := hf s s.data s.key s.pwd
  have hfdata : (f s).data = s.data := by rw [hself]
  have hfkey : (f s).key = s.key := by rw [hself]
  have hfpwd : (f s).pwd = s.pwd := by rw [hself]
  rw [hf s d k p]
  exact ⟨by rwa [hfdata], by rwa [hfkey], by rwa [hfpwd], rfl⟩

theorem State.SameWritten.loadData (h : s.SameWritten t) (B : Block) : (loadData B s).SameWritten (loadData B t) := by
  obtain ⟨d, k, p, -, hkey, hpwd, rfl⟩ := h.exists_arrays
  exact ⟨.refl _, hkey, hpwd, rfl⟩

theorem State.SameWritten.loadKey (h : s.SameWritten t) (B : Block) : (loadKey B s).SameWritten (loadKey B t) := by
  obtain ⟨d, k, p, hdata, -, hpwd, rfl⟩ := h.exists_arrays
  exact ⟨hdata, .refl _, hpwd, rfl⟩

theorem State.SameWritten.coreReset (h : s.SameWritten t) : (coreReset s).SameWritten (coreReset t) := by
  obtain ⟨d, k, p, -, -, -, rfl⟩ := h.exists_arrays
  exact ⟨.refl _, .refl _, .refl _, rfl⟩

theorem State.SameWritten.written_eq (h : s.SameWritten t) (l : Loc) : s.written l = t.written l := by
  obtain ⟨hdata, hkey, hpwd, -⟩ := h
  cases l with
  | data i => exact hdata.wr_get i
  | key i => exact hkey.wr_get i
  | pwd i => exact hpwd.wr_get i

/-! Outcomes: sequencing, and the unwritten check. -/

theorem OutcomeSameWritten.andThen {x y : Result State} (h : OutcomeSameWritten x y) {f : State → Result State}
    (hf : ∀ u w, u.SameWritten w → OutcomeSameWritten (f u) (f w)) :
    OutcomeSameWritten (andThen x f) (andThen y f) := by
  cases x with
  | next u =>
    cases y with
    | next w => exact hf u w h
    | fault _ | refused _ => exact h.elim
  | fault _ =>
    cases y with
    | fault _ => exact h
    | next _ | refused _ => exact h.elim
  | refused _ =>
    cases y with
    | refused _ => exact h
    | next _ | fault _ => exact h.elim

/-- The check stops at the same byte in both states; past it, every byte it read is written. -/
theorem State.SameWritten.require {α : Type} (h : s.SameWritten t) {R : Result α → Result α → Prop}
    (hfault : ∀ f, R (.fault f) (.fault f)) {ls : List Loc} {x y : Result α}
    (hxy : (∀ l ∈ ls, s.written l = true) → R x y) : R (require ls s x) (require ls t y) := by
  rw [← require_congr fun l _ => h.written_eq l]
  cases hfind : ls.find? fun l => !s.written l with
  | none =>
    have hw : ∀ l ∈ ls, s.written l = true := by simpa using hfind
    rw [require_of_written hw, require_of_written hw]
    exact hxy hw
  | some m =>
    simp only [Machine.require, hfind]
    exact hfault _

theorem outcomeSameWritten_fault (f : Fault) : OutcomeSameWritten (.fault f) (.fault f) := rfl

/-! The bus (R54, R55, R57, R100). -/

theorem State.SameWritten.readReg_eq (h : s.SameWritten t) (r : Reg) : readReg r s = readReg r t := by
  obtain ⟨d, k, p, hdata, hkey, hpwd, rfl⟩ := h.exists_arrays
  cases r with
  | data i => exact h.require (R := Eq) (fun _ => rfl) fun hw => by rw [hdata.2 i (hw (.data i) (by simp))]
  | key i => exact h.require (R := Eq) (fun _ => rfl) fun hw => by rw [hkey.2 i (hw (.key i) (by simp))]
  | pwd i => exact h.require (R := Eq) (fun _ => rfl) fun hw => by rw [hpwd.2 i (hw (.pwd i) (by simp))]
  | rsize | pwlen | cmd | status | errcode | reserved _ => rfl

theorem passwordChars_congr {P Q : Block} {L : Nat} (h : ∀ k : Fin 16, k.val < L → P[k] = Q[k]) :
    passwordChars P L = passwordChars Q L := by
  rw [Bool.eq_iff_iff, passwordChars_iff, passwordChars_iff]
  exact forall_congr' fun k => imp_congr_right fun hk => by rw [h k hk]

theorem State.SameWritten.checkPassword_eq (h : s.SameWritten t) : checkPassword s = checkPassword t := by
  obtain ⟨d, k, p, -, -, hpwd, rfl⟩ := h.exists_arrays
  unfold checkPassword
  split
  · refine h.require (R := Eq) (fun _ => rfl) fun hw => ?_
    rw [passwordChars_congr fun k hk => hpwd.2 k (pwdLocs_written.mp hw k hk)]
  · rfl

theorem State.SameWritten.issueCheck_eq (h : s.SameWritten t) (i : Instr) : issueCheck i s = issueCheck i t := by
  cases i with
  | fromPw => exact h.checkPassword_eq
  | nop | gen | movkd | rkey _ => rfl
  | enc | dec | movdk =>
    obtain ⟨d, k, p, -, -, -, rfl⟩ := h.exists_arrays
    rfl

theorem State.SameWritten.issue (h : s.SameWritten t) (c : Byte) : OutcomeSameWritten (issue c s) (issue c t) := by
  unfold Machine.issue
  cases decode c with
  | illegal => exact h.map fun _ _ _ _ => rfl
  | command i =>
    dsimp only
    rw [← h.issueCheck_eq i]
    cases issueCheck i s with
    | next e =>
      rw [andThen_next, andThen_next]
      split
      · exact h.map fun _ _ _ _ => rfl
      · exact h.map fun _ _ _ _ => rfl
    | fault _ | refused _ => rfl

theorem State.SameWritten.writeReg (h : s.SameWritten t) (r : Reg) (v : Byte) :
    OutcomeSameWritten (writeReg r v s) (writeReg r v t) := by
  obtain ⟨d, k, p, hdata, hkey, hpwd, rfl⟩ := h.exists_arrays
  cases r with
  | data i => exact ⟨hdata.write i v, hkey, hpwd, rfl⟩
  | key i => exact ⟨hdata, hkey.write i v, hpwd, rfl⟩
  | pwd i => exact ⟨hdata, hkey, hpwd.write i v, rfl⟩
  | cmd => exact h.issue v
  | status =>
    simp only [Machine.writeReg]
    split
    · exact h.map (f := clearError) fun _ _ _ _ => rfl
    · exact h
  | rsize | pwlen => exact ⟨hdata, hkey, hpwd, rfl⟩
  | errcode | reserved _ => exact h

theorem State.SameWritten.memWrite (h : s.SameWritten t) (off : Offset) (width : Nat) (v : Byte) :
    OutcomeSameWritten (memWrite off width v s) (memWrite off width v t) := by
  obtain ⟨-, -, hbusy, -, -⟩ := h.scalars_eq
  unfold Machine.memWrite
  rw [← hbusy]
  split_ifs
  · rfl
  · exact h.map fun _ _ _ _ => rfl
  · exact h.writeReg _ v

/-! The host (R85). -/

/-- A read operation, by the kind of its access (R53, R54, R57). -/
theorem hostOp_rd (off : Offset) (width dst : Nat) (s : State) :
    hostOp (.rd off width dst) s =
      if width ≠ 1 then .refused .wideAccess
      else if s.busy = true ∧ off.toNat ≤ 0x31 then
        .next (advanceHost (setVar dst (Config.draw s.drawn) (takeDraws 1 s)))
      else andThen (readReg (Reg.ofOffset off) s) fun b => .next (advanceHost (setVar dst b s)) := by
  rw [hostOp, memRead]
  split_ifs
  · rfl
  · rfl
  · cases readReg (Reg.ofOffset off) s <;> rfl

theorem State.SameWritten.hostOp (h : s.SameWritten t) (o : HostOp) :
    OutcomeSameWritten (hostOp o s) (hostOp o t) := by
  cases o with
  | wr off width v =>
    exact (h.memWrite off width v).andThen fun u w huw => huw.map (f := advanceHost) fun _ _ _ _ => rfl
  | rd off width dst =>
    obtain ⟨-, -, hbusy, -, hdrawn⟩ := h.scalars_eq
    rw [hostOp_rd, hostOp_rd, ← hbusy, ← hdrawn, ← h.readReg_eq]
    split_ifs
    · rfl
    · exact h.map (f := fun u => advanceHost (setVar dst (Config.draw s.drawn) (takeDraws 1 u))) fun _ _ _ _ => rfl
    · cases readReg (Reg.ofOffset off) s with
      | next b => exact h.map (f := fun u => advanceHost (setVar dst b u)) fun _ _ _ _ => rfl
      | fault _ | refused _ => rfl
  | bnz x bit target =>
    obtain ⟨d, k, p, hdata, hkey, hpwd, rfl⟩ := h.exists_arrays
    rw [hostOp_bnz, hostOp_bnz]
    split
    · exact h.map (f := jumpHost target) fun _ _ _ _ => rfl
    · exact h.map (f := advanceHost) fun _ _ _ _ => rfl
  | halt => exact h

theorem State.SameWritten.hostTurn (h : s.SameWritten t) : OutcomeSameWritten (hostTurn s) (hostTurn t) := by
  obtain ⟨d, k, p, -, -, -, rfl⟩ := h.exists_arrays
  unfold Machine.hostTurn
  dsimp only
  cases s.program[s.hpc]? with
  | none => exact h
  | some o => exact h.hostOp o

/-! The completions (R104): the operand bytes are written, so both compute the same from them. -/

/-- ENC and DEC: the lanes in range are computed from written bytes, the others are kept. -/
theorem State.SameWritten.setDataBytes (h : s.SameWritten t) {f : Block → Block → Nat → Block}
    (hkeep : ∀ (B K : Block) (i : Fin 16), s.rsize.toNat ≤ i.val → (f B K s.rsize.toNat)[i] = B[i])
    (hlanes : ∀ i : Fin 16, i.val < s.rsize.toNat →
      (f s.data.bytes s.key.bytes s.rsize.toNat)[i] = (f t.data.bytes t.key.bytes s.rsize.toNat)[i]) :
    (setDataBytes (f s.data.bytes s.key.bytes s.rsize.toNat) s).SameWritten
      (setDataBytes (f t.data.bytes t.key.bytes t.rsize.toNat) t) := by
  obtain ⟨d, k, p, hdata, hkey, hpwd, rfl⟩ := h.exists_arrays
  refine ⟨⟨hdata.1, fun i hi => ?_⟩, hkey, hpwd, rfl⟩
  obtain hlt | hge := Nat.lt_or_ge i.val s.rsize.toNat
  · exact hlanes i hlt
  · exact (hkeep _ _ i hge).trans ((hdata.2 i hi).trans (hkeep _ _ i hge).symm)

theorem encodePassword_congr {P Q : Block} {L : Nat} (hL : PasswordLength L)
    (h : ∀ k : Fin 16, k.val < L → P[k] = Q[k]) : encodePassword P L = encodePassword Q L := by
  obtain ⟨hmin, hmax⟩ := hL
  refine Block.ext_fin fun i => ?_
  have hlt : i.val % L < L := Nat.mod_lt _ (Nat.lt_of_lt_of_le (by decide) hmin)
  have h16 : i.val % L < 16 := Nat.lt_of_lt_of_le hlt hmax
  rw [encodePasswordRepeats P L i hmin hmax, encodePasswordRepeats Q L i hmin hmax, byteAt_of_lt P h16,
    byteAt_of_lt Q h16]
  exact h ⟨_, h16⟩ hlt

/-- The lanes ENC and DEC read are written in `s`, so they hold the same bytes in `t`. -/
theorem State.SameWritten.codec_bytes_eq (h : s.SameWritten t)
    (hw : ∀ l ∈ codecLocs s.rsize.toNat, s.written l = true) :
    ∀ i : Fin 16, i.val < s.rsize.toNat → s.data.bytes[i] = t.data.bytes[i] ∧ s.key.bytes[i] = t.key.bytes[i] := by
  obtain ⟨hdata, hkey, -, -⟩ := h
  intro i hi
  obtain ⟨hdw, hkw⟩ := codecLocs_written.mp hw i hi
  exact ⟨hdata.2 i hdw, hkey.2 i hkw⟩

theorem State.SameWritten.applied (h : s.SameWritten t) {i : Instr} (hd : OperandsDefined i s)
    (hw : OperandsWritten i s) : (applied i s).SameWritten (applied i t) := by
  have ⟨hdata, hkey, hpwd, _⟩ := h
  cases i with
  | nop => exact h
  | enc =>
    exact h.setDataBytes (fun B K i hi => encrypt_get_of_le i.isLt hi B K) fun i hi =>
      encrypt_get_congr hd.2 (h.codec_bytes_eq hw) hi
  | dec =>
    exact h.setDataBytes (fun B K i hi => decrypt_get_of_le i.isLt hi B K) fun i hi =>
      decrypt_get_congr hd.2 (h.codec_bytes_eq hw) hi
  | gen =>
    obtain ⟨-, -, -, -, hdrawn⟩ := h.scalars_eq
    simp only [Machine.applied]
    rw [← hdrawn]
    exact (h.map (f := takeDraws 16) fun _ _ _ _ => rfl).loadData _
  | fromPw =>
    obtain ⟨-, hpwlen, -, -, -⟩ := h.scalars_eq
    simp only [Machine.applied]
    rw [← hpwlen, ← encodePassword_congr hd fun k hk => hpwd.2 k (pwdLocs_written.mp hw k hk)]
    exact h.loadKey _
  | movdk =>
    simp only [Machine.applied]
    rw [← hdata.bytes_eq (dataLocs_written.mp hw)]
    exact h.loadKey _
  | movkd | rkey r =>
    simp only [Machine.applied]
    rw [← hkey.bytes_eq (keyLocs_written.mp hw)]
    exact h.loadData _

theorem State.SameWritten.exec (h : s.SameWritten t) (i : Instr) : OutcomeSameWritten (exec i s) (exec i t) := by
  obtain ⟨hrsize, hpwlen, -, -, -⟩ := h.scalars_eq
  by_cases hd : OperandsDefined i s
  · rw [exec_of_defined hd, exec_of_defined ((operandsDefined_congr i hrsize hpwlen).mp hd),
      ← operandLocs_congr i hrsize hpwlen]
    exact h.require outcomeSameWritten_fault fun hw => (h.applied hd hw).map (f := retire) fun _ _ _ _ => rfl
  · rw [exec_of_not_defined hd, exec_of_not_defined ((operandsDefined_congr i hrsize hpwlen).not.mp hd)]
    rfl

theorem State.SameWritten.coreTurn (h : s.SameWritten t) : OutcomeSameWritten (coreTurn s) (coreTurn t) := by
  obtain ⟨-, -, -, hpend, -⟩ := h.scalars_eq
  unfold Machine.coreTurn
  rw [← hpend]
  cases s.pend with
  | none => exact h
  | some c =>
    dsimp only
    cases decode c with
    | command i => exact h.exec i
    | illegal => rfl

theorem State.SameWritten.step (h : s.SameWritten t) : OutcomeSameWritten (step s) (step t) := by
  have hdrop : (dropTurn s).SameWritten (dropTurn t) := h.map (f := dropTurn) fun _ _ _ _ => rfl
  have hturn : nextTurn s = nextTurn t := by
    obtain ⟨d, k, p, -, -, -, rfl⟩ := h.exists_arrays
    rfl
  unfold Machine.step
  rw [← hturn]
  cases nextTurn s with
  | host => exact hdrop.hostTurn
  | core => exact hdrop.coreTurn
  | reset => exact hdrop.coreReset

end States

/-- Settles O51: the turn is the same, and each agent's turn keeps the two states the same. -/
theorem unwrittenBytesAreInvisible : Obligations.UnwrittenBytesAreInvisible := fun _ _ => State.SameWritten.step

end Sys2Proof.Machine

/-! PROOFS. Turns (20_memory.md, 40_command_execution.md): what a step is on each agent's turn, and how turns follow
each other. -/

namespace Sys2Proof.Machine

section Turns
variable {s : State}

/-! A step, by whose turn it is (R62, R104, R200). -/

theorem step_of_hostNext {o : HostOp} (h : hostNext o s) : step s = hostOp o (dropTurn s) := by
  obtain ⟨hturn, hop⟩ := h
  simp only [step, hturn, hostTurn, dropTurn_program, dropTurn_hpc, hop]

theorem step_of_host_done (hturn : nextTurn s = .host) (hop : s.program[s.hpc]? = none) :
    step s = .next (dropTurn s) :=
  step_eq_next.mpr (.inl ⟨hturn, hop, rfl⟩)

theorem step_of_core (hturn : nextTurn s = .core) : step s = coreTurn (dropTurn s) := by
  simp only [step, hturn]

theorem coreTurn_of_pend_none (hpend : s.pend = none) : coreTurn s = .next s := by
  simp only [coreTurn, hpend]

theorem coreTurn_of_pend {c : Byte} {i : Instr} (hpend : s.pend = some c) (hd : decode c = .command i) :
    coreTurn s = exec i s := by
  simp only [coreTurn, hpend, hd]

/-- What a turn of the host is. -/
theorem step_host_cases (hturn : nextTurn s = .host) :
    (∃ o, hostNext o s ∧ step s = hostOp o (dropTurn s)) ∨ step s = .next (dropTurn s) := by
  cases hop : s.program[s.hpc]? with
  | none => exact .inr (step_of_host_done hturn hop)
  | some o => exact .inl ⟨o, ⟨hturn, hop⟩, step_of_hostNext ⟨hturn, hop⟩⟩

/-! The order of turns (log, entry 4). -/

theorem dropTurn_of_cons {t : Turn} {rest : List Turn} (h : s.sched = t :: rest) :
    dropTurn s = { s with sched := rest } := by
  simp only [dropTurn, passGap_of_cons h, h, List.tail_cons]

theorem dropTurn_of_nil (h : s.sched = []) :
    dropTurn s = { s with
      gap := if s.gap = 0 then Config.coreGap s.gaps else s.gap - 1
      gaps := if s.gap = 0 then s.gaps + 1 else s.gaps } := by
  simp only [dropTurn, passGap_of_nil h, h, List.tail_nil]
  split_ifs <;> rfl

theorem nextTurn_nil_eq_core_iff (h : s.sched = []) : nextTurn s = .core ↔ s.pend ≠ none ∧ s.gap = 0 := by
  rw [nextTurn_of_nil h]
  split_ifs with hpend hgap <;> simp [*]

theorem nextTurn_nil_eq_host_iff (h : s.sched = []) : nextTurn s = .host ↔ s.pend = none ∨ s.gap ≠ 0 := by
  rw [nextTurn_of_nil h]
  split_ifs with hpend hgap <;> simp [*]

end Turns

/-- Settles O53: `nextTurn` and `dropTurn` on a listed turn and past the list. -/
theorem turnsFollowTheSchedule : Obligations.TurnsFollowTheSchedule := by
  refine fun s => ⟨fun t rest h => ⟨nextTurn_of_cons h, dropTurn_of_cons h⟩, fun h =>
    ⟨nextTurn_nil_eq_core_iff h, nextTurn_nil_eq_host_iff h, fun g hg => ?gapLeft, fun hg => ?gapPassed⟩⟩
  case gapLeft => simp [dropTurn_of_nil h, hg]
  case gapPassed => simp [dropTurn_of_nil h, hg]

/-! The command placed by `withFetchWord` (log, entry 13). -/

theorem nextTurn_placeCommand (s : State) (nbits w : Nat) : nextTurn (placeCommand s nbits w) = .core := rfl

theorem dropTurn_placeCommand (s : State) {w : Nat} (hw : w < 256) :
    dropTurn (placeCommand s 8 w) = { s with pend := some (BitVec.ofNat 8 w), busy := true } := by
  have hbyte : w % 2 ^ 8 = w := Nat.mod_eq_of_lt hw
  rw [placeCommand, hbyte]
  exact dropTurn_of_cons rfl

/-- Settles O42: a core turn on the pending byte; the placed byte is pending on a core turn. -/
theorem stepRunsThePendingCommand : Obligations.StepRunsThePendingCommand := by
  refine ⟨fun s c i hturn hpend hd => ?turn, fun s w i hw hd => ?placed⟩
  case turn => rw [step_of_core hturn, coreTurn_of_pend (s := dropTurn s) hpend hd]
  case placed =>
    rw [State.withFetchWord, step_of_core (nextTurn_placeCommand s 8 w), dropTurn_placeCommand s hw]
    exact coreTurn_of_pend rfl hd

/-- Settles O43: each host operation at the state with the turn used up. -/
theorem stepRunsTheHostOperation : Obligations.StepRunsTheHostOperation := by
  refine fun s => ⟨fun off v u hnext hwrite => ?write, fun off x b u hnext hread => ?read,
    fun x bit target hnext => ?branch, step_of_hostNext, step_of_host_done⟩
  case write =>
    rw [step_of_hostNext hnext]
    exact hostOp_wr_eq_next.mpr ⟨u, hwrite, rfl⟩
  case read =>
    refine ⟨advanceHost (setVar x b u), ?_, rfl, fun hvars y => Vars.get_set x y b u.vars hvars⟩
    rw [step_of_hostNext hnext]
    exact hostOp_rd_eq_next.mpr ⟨b, u, hread, rfl⟩
  case branch =>
    rw [step_of_hostNext hnext, hostOp_bnz, dropTurn_vars]
    split <;> rfl

/-- Settles O45: the reset values, and NOP's issue, which has no check. -/
theorem resetStateIsIdleAndReady : Obligations.ResetStateIsIdleAndReady := by
  refine ⟨rfl, rfl, rfl, rfl, rfl, rfl, fun l => ?unwritten, rfl, rfl, memWrite_cmd_unchecked rfl (.inl rfl)⟩
  case unwritten =>
    cases l with
    | data i | key i | pwd i => exact RegArray.reset_wr i.isLt

end Sys2Proof.Machine

/-! PROOFS. Stops and progress (60_exceptions.md, 70_reset_and_hazards.md): where a step stops, that no run from the
invariant meets an internal fault, and that a pending command reaches its completion. -/

namespace Sys2Proof.Machine

/-! Where a bus access stops (R53, R54, R102). -/

section Accesses
variable {off : Offset} {width : Nat} {v : Byte} {s : State}

theorem writeReg_eq_fault {r : Reg} {f : Fault} (h : writeReg r v s = .fault f) : r = .cmd ∧ issue v s = .fault f := by
  cases r with
  | cmd => exact ⟨rfl, h⟩
  | status => rw [writeReg] at h; split at h <;> cases h
  | data _ | key _ | pwd _ | rsize | pwlen | errcode | reserved _ => cases h

theorem writeReg_ne_refused {r : Reg} {ref : Refusal} : writeReg r v s ≠ .refused ref := by
  cases r with
  | cmd => exact issue_ne_refused
  | status => rw [writeReg]; split <;> simp
  | data _ | key _ | pwd _ | rsize | pwlen | errcode | reserved _ => simp [writeReg]

/-- A write stops only where an issue does, and an issue is dropped while busy. -/
theorem memWrite_eq_fault {f : Fault} (h : memWrite off width v s = .fault f) :
    s.busy = false ∧ issue v s = .fault f := by
  unfold memWrite at h
  split_ifs at h with hwidth hdrop
  obtain ⟨hcmd, hissue⟩ := writeReg_eq_fault h
  rw [eq_offset_of_ofOffset hcmd] at hdrop
  exact ⟨by simpa [Reg.offset] using hdrop, hissue⟩

theorem memWrite_eq_refused {r : Refusal} (h : memWrite off width v s = .refused r) : width ≠ 1 ∧ r = .wideAccess := by
  unfold memWrite at h
  split_ifs at h with hwidth
  · exact ⟨hwidth, (Host.Outcome.refused.inj h).symm⟩
  · exact absurd h writeReg_ne_refused

end Accesses

theorem ofOffset_control_of_gt : ∀ off : Offset, 0x31 < off.toNat →
    Reg.ofOffset off = .cmd ∨ Reg.ofOffset off = .status ∨ Reg.ofOffset off = .errcode ∨
      ∃ i, Reg.ofOffset off = .reserved i := by decide

/-- CMD, STATUS, ERRCODE and the reserved offsets always read. -/
theorem readReg_high (s : State) {off : Offset} (h : 0x31 < off.toNat) :
    ∃ b, readReg (Reg.ofOffset off) s = .next b := by
  obtain hr | hr | hr | ⟨i, hr⟩ := ofOffset_control_of_gt off h <;> exact ⟨_, by rw [hr, readReg]⟩

/-! Where a host operation stops. -/

section HostOp
variable {o : HostOp} {s : State}

/-- A read stops at the byte it reads, which a read while busy does not. -/
theorem hostOp_rd_eq_fault {off : Offset} {width dst : Nat} {f : Fault} (h : hostOp (.rd off width dst) s = .fault f) :
    s.busy = false ∧ ∃ l, s.written l = false ∧ f = .unwritten l := by
  rw [hostOp_rd] at h
  split_ifs at h with hwidth hdraw
  obtain ⟨b, hb⟩ | ⟨l, hl, hb⟩ := readReg_cases (Reg.ofOffset off) s
  · rw [hb] at h
    cases h
  · refine ⟨?_, l, hl, ?_⟩
    · by_contra hbusy
      have hhigh : 0x31 < off.toNat := by
        by_contra hlow
        exact hdraw ⟨by simpa using hbusy, by omega⟩
      obtain ⟨b, hread⟩ := readReg_high s hhigh
      rw [hread] at hb
      cases hb
    · rw [hb] at h
      exact (Host.Outcome.fault.inj h).symm

theorem hostOp_eq_fault {f : Fault} (h : hostOp o s = .fault f) :
    s.busy = false ∧ ∃ l, s.written l = false ∧ f = .unwritten l := by
  cases o with
  | wr off width v =>
    rw [hostOp, andThen_eq_fault] at h
    obtain h | ⟨u, -, h⟩ := h
    · obtain ⟨hidle, hissue⟩ := memWrite_eq_fault h
      obtain ⟨-, k, hk, rfl⟩ := issue_eq_fault hissue
      exact ⟨hidle, .pwd k, hk, rfl⟩
    · cases h
  | rd off width dst => exact hostOp_rd_eq_fault h
  | bnz x bit target => rw [hostOp_bnz] at h; cases h
  | halt => cases h

/-- An access of a width other than one byte. -/
def HostOp.Wide (o : HostOp) : Prop :=
  ∃ (off : Offset) (width : Nat), width ≠ 1 ∧ ((∃ v, o = .wr off width v) ∨ ∃ x, o = .rd off width x)

theorem hostOp_eq_refused {r : Refusal} (h : hostOp o s = .refused r) : r = .wideAccess ∧ o.Wide := by
  cases o with
  | wr off width v =>
    rw [hostOp, andThen_eq_refused] at h
    obtain h | ⟨u, -, h⟩ := h
    · obtain ⟨hwidth, rfl⟩ := memWrite_eq_refused h
      exact ⟨rfl, off, width, hwidth, .inl ⟨v, rfl⟩⟩
    · cases h
  | rd off width dst =>
    rw [hostOp_rd] at h
    split_ifs at h with hwidth
    · exact ⟨(Host.Outcome.refused.inj h).symm, off, width, hwidth, .inr ⟨dst, rfl⟩⟩
    · obtain ⟨b, hb⟩ | ⟨l, -, hb⟩ := readReg_cases (Reg.ofOffset off) s <;> rw [hb] at h <;> cases h
  | bnz x bit target => rw [hostOp_bnz] at h; cases h
  | halt => cases h

end HostOp

/-! Where a core turn stops, under the invariant (R104). -/

theorem operandsDefined_of_issueCheck {i : Instr} {s : State} (hi : i.WellFormed)
    (h : issueCheck i s = .next .noError) : OperandsDefined i s := by
  cases i with
  | nop | gen | movdk | movkd => trivial
  | enc | dec => exact checkRealSize_eq_noError.mp h
  | fromPw =>
    obtain ⟨hlen, -, -⟩ := checkPassword_eq_noError.mp h
    exact hlen
  | rkey r =>
    have hr := wellFormed_rkey.mp hi
    have hlt : r.toNat < 15 := by bv_omega
    exact hlt

section Core
variable {s : State} (hinv : s.Inv) {c : Byte} {i : Instr} (hpend : s.pend = some c) (hd : decode c = .command i)
include hinv hpend hd

theorem operandsDefined_of_inv : OperandsDefined i s := by
  obtain ⟨j, hj, hcheck⟩ := hinv.pend_ok c hpend
  obtain rfl : i = j := Decoded.command.inj (hd.symm.trans hj)
  obtain ⟨hwf, -⟩ := wellFormed_and_encode_of_decode hd
  exact operandsDefined_of_issueCheck hwf hcheck

/-- A pending command completes, or stops at an operand byte. -/
theorem coreTurn_of_inv :
    (∃ u, coreTurn s = .next u ∧ u.busy = false ∧ u.pend = none) ∨
      ∃ l ∈ operandLocs i s, s.written l = false ∧ coreTurn s = .fault (.unwritten l) := by
  have hdef := operandsDefined_of_inv hinv hpend hd
  rw [coreTurn_of_pend hpend hd]
  by_cases hw : OperandsWritten i s
  · exact .inl ⟨_, exec_of_written hdef hw, rfl, rfl⟩
  · exact .inr (exec_of_not_written hdef hw)

end Core

/-! Where a step stops. -/

section Steps
variable {s t : State}

theorem step_eq_fault (hinv : s.Inv) {f : Fault} (h : step s = .fault f) :
    ∃ l, s.written l = false ∧ f = .unwritten l := by
  cases hturn : nextTurn s with
  | host =>
    obtain ⟨o, -, hstep⟩ | hstep := step_host_cases hturn
    · obtain ⟨-, l, hl, hf⟩ := hostOp_eq_fault (hstep.symm.trans h)
      exact ⟨l, hl, hf⟩
    · cases hstep.symm.trans h
  | core =>
    rw [step_of_core hturn] at h
    cases hpend : s.pend with
    | none =>
      rw [coreTurn_of_pend_none (s := dropTurn s) hpend] at h
      cases h
    | some c =>
      obtain ⟨i, hd, -⟩ := hinv.pend_ok c hpend
      obtain ⟨u, hu, -⟩ | ⟨l, -, hl, hstop⟩ := coreTurn_of_inv (inv_dropTurn hinv) hpend hd
      · cases hu.symm.trans h
      · exact ⟨l, hl, Host.Outcome.fault.inj (h.symm.trans hstop)⟩
  | reset => cases (step_of_reset hturn).symm.trans h

theorem step_eq_refused {r : Refusal} (h : step s = .refused r) :
    r = .wideAccess ∧ ∃ o : HostOp, o.Wide ∧ hostNext o s := by
  cases hturn : nextTurn s with
  | host =>
    obtain ⟨o, hnext, hstep⟩ | hstep := step_host_cases hturn
    · obtain ⟨hr, hwide⟩ := hostOp_eq_refused (hstep.symm.trans h)
      exact ⟨hr, o, hwide, hnext⟩
    · cases hstep.symm.trans h
  | core =>
    rw [step_of_core hturn, coreTurn] at h
    split at h
    · cases h
    · split at h
      · exact absurd h exec_ne_refused
      · cases h
  | reset => cases (step_of_reset hturn).symm.trans h

/-- The wide operation that comes next, named by its kind. -/
theorem exists_wide_hostNext {o : HostOp} (hwide : o.Wide) (hnext : hostNext o s) :
    ∃ (off : Offset) (width : Nat), width ≠ 1 ∧
      ((∃ v, hostNext (.wr off width v) s) ∨ ∃ x, hostNext (.rd off width x) s) := by
  obtain ⟨off, width, hwidth, ⟨v, rfl⟩ | ⟨x, rfl⟩⟩ := hwide
  · exact ⟨off, width, hwidth, .inl ⟨v, hnext⟩⟩
  · exact ⟨off, width, hwidth, .inr ⟨x, hnext⟩⟩

/-- A run from the invariant stops, if it faults, as one of its steps does. -/
theorem safeRun_of_inv (k : Nat) (hinv : s.Inv) : SafeRun k s := by
  induction k generalizing s with
  | zero => intro f h; cases h
  | succ k ih =>
    intro f h
    rw [runSteps_succ, andThen_eq_fault] at h
    obtain hstop | ⟨t, hstep, hrest⟩ := h
    · obtain ⟨l, -, rfl⟩ := step_eq_fault hinv hstop
      rfl
    · exact ih (inv_of_step hinv hstep) f hrest

end Steps

/-- Settles O48: host operations, completions and issues stop at unwritten bytes, and only host operations refuse. -/
theorem stepsStopOnlyAsTheSpecSays : Obligations.StepsStopOnlyAsTheSpecSays := by
  refine fun s hinv => ⟨fun f => step_eq_fault hinv, fun r h => ?_⟩
  obtain ⟨hr, o, hwide, hnext⟩ := step_eq_refused h
  exact ⟨hr, exists_wide_hostNext hwide hnext⟩

/-- Settles O50: by induction on the length of the run. -/
theorem runsFromInvAreSafe : Obligations.RunsFromInvAreSafe := fun k _ => safeRun_of_inv k

/-! The wait of a pending command (R209): host turns keep it, and use up the turns before the core's. -/

section Wait
variable {s t : State}

theorem CommandKept.trans {u : State} (h : CommandKept s t) (h' : CommandKept t u) : CommandKept s u := by
  obtain ⟨hdata, hkey, hpwd, hrsize, hpwlen, hpend, hbusy⟩ := h
  obtain ⟨hdata', hkey', hpwd', hrsize', hpwlen', hpend', hbusy'⟩ := h'
  exact ⟨hdata'.trans hdata, hkey'.trans hkey, hpwd'.trans hpwd, hrsize'.trans hrsize, hpwlen'.trans hpwlen,
    hpend'.trans hpend, hbusy'.trans hbusy⟩

theorem CommandKept.sameOperands (h : CommandKept s t) : SameOperands t s := by
  obtain ⟨hdata, hkey, hpwd, hrsize, hpwlen, -, -⟩ := h
  exact ⟨hdata, hkey, hpwd, hrsize, hpwlen⟩

theorem WriteEffect.turns_eq {off : Offset} {v : Byte} (h : WriteEffect off v s t) :
    t.sched = s.sched ∧ t.gap = s.gap := by
  cases h <;> exact ⟨rfl, rfl⟩

theorem step_host_turns (hturn : nextTurn s = .host) (h : step s = .next t) :
    t.sched = (dropTurn s).sched ∧ t.gap = (dropTurn s).gap := by
  cases step_effect h with
  | quiet t _ hlocal =>
    obtain ⟨ht, -⟩ := hlocal
    rw [ht]
    exact ⟨rfl, rfl⟩
  | write off v u _ heff => exact heff.turns_eq
  | idle hcore | complete _ _ hcore | reset hcore => rw [hturn] at hcore; cases hcore

/-- While busy, a host turn goes on, or is refused as a wide access. -/
theorem step_host_busy (hbusy : s.busy = true) (hturn : nextTurn s = .host) :
    (∃ t, step s = .next t) ∨ step s = .refused .wideAccess ∧ ∃ o : HostOp, o.Wide ∧ hostNext o s := by
  cases hstep : step s with
  | next t => exact .inl ⟨t, rfl⟩
  | refused r =>
    obtain ⟨rfl, hwide⟩ := step_eq_refused hstep
    exact .inr ⟨rfl, hwide⟩
  | fault f =>
    obtain ⟨o, -, hop⟩ | hnext := step_host_cases hturn
    · obtain ⟨hidle, -⟩ := hostOp_eq_fault (hop.symm.trans hstep)
      rw [dropTurn_busy, hbusy] at hidle
      cases hidle
    · cases hnext.symm.trans hstep

/-- What ends the wait: a turn of another agent than the host, or a wide access. -/
def WaitEnds (t : State) : Prop :=
  nextTurn t = .core ∨ nextTurn t = .reset ∨
    step t = .refused .wideAccess ∧ ∃ o : HostOp, o.Wide ∧ hostNext o t

/-- Within the turns left before the core's, a run from `s` comes to the end of the wait, the command kept. -/
def ReachesWaitEnd (s : State) : Prop :=
  ∃ (k : Nat) (t : State), k ≤ s.sched.length + s.gap ∧ runSteps k s = .next t ∧ t.Inv ∧ CommandKept s t ∧
    t.sched ⊆ s.sched ∧ WaitEnds t

theorem reachesWaitEnd_of_waitEnds (hinv : s.Inv) (hend : WaitEnds s) : ReachesWaitEnd s :=
  ⟨0, s, Nat.zero_le _, rfl, hinv, ⟨rfl, rfl, rfl, rfl, rfl, rfl, rfl⟩, List.Subset.refl _, hend⟩

theorem turnsLeft_lt_of_step (hpend : s.pend ≠ none) (hturn : nextTurn s = .host) (hstep : step s = .next t) :
    t.sched.length + t.gap < s.sched.length + s.gap := by
  obtain ⟨hsched, hgap⟩ := step_host_turns hturn hstep
  rw [hsched, hgap]
  exact turnsLeft_lt_of_host hpend hturn

theorem pend_ne_none_of_busy (hinv : s.Inv) (hbusy : s.busy = true) : s.pend ≠ none :=
  Option.isSome_iff_ne_none.mp (hinv.busy_iff_pend.symm.trans hbusy)

theorem reachesWaitEnd_of_step (hinv : s.Inv) (hbusy : s.busy = true) (hturn : nextTurn s = .host)
    (hstep : step s = .next t) (hreach : ReachesWaitEnd t) : ReachesWaitEnd s := by
  obtain ⟨k, u, hk, hrun, hinvu, hkept, hsub, hend⟩ := hreach
  have hlt := turnsLeft_lt_of_step (pend_ne_none_of_busy hinv hbusy) hturn hstep
  obtain ⟨hsched, -⟩ := step_host_turns hturn hstep
  rw [hsched] at hsub
  refine ⟨k + 1, u, by omega, ?_, hinvu, (step_host_commandKept hbusy hturn hstep).trans hkept,
    List.Subset.trans hsub (List.tail_subset _), hend⟩
  rw [runSteps_succ, hstep, andThen_next, hrun]

/-- By induction on the turns left before the core's. -/
theorem reachesWaitEnd (hinv : s.Inv) (hbusy : s.busy = true) : ReachesWaitEnd s := by
  induction hn : s.sched.length + s.gap using Nat.strong_induction_on generalizing s with
  | _ n ih =>
    subst hn
    cases hturn : nextTurn s with
    | core => exact reachesWaitEnd_of_waitEnds hinv (.inl hturn)
    | reset => exact reachesWaitEnd_of_waitEnds hinv (.inr (.inl hturn))
    | host =>
      obtain ⟨t, hstep⟩ | hwide := step_host_busy hbusy hturn
      · have hlt := turnsLeft_lt_of_step (pend_ne_none_of_busy hinv hbusy) hturn hstep
        have hbusy' : t.busy = true := (step_host_commandKept hbusy hturn hstep).busy_eq.trans hbusy
        exact reachesWaitEnd_of_step hinv hbusy hturn hstep (ih _ hlt (inv_of_step hinv hstep) hbusy' rfl)
      · exact reachesWaitEnd_of_waitEnds hinv (.inr (.inr hwide))

end Wait

/-- Settles O49: where the wait ends, the core's turn is the completion, on the operands the command was issued with. -/
theorem pendingCommandsReachTheirCompletion : Obligations.PendingCommandsReachTheirCompletion := by
  intro s c i hinv hpend hd
  have hbusy : s.busy = true := by rw [hinv.busy_iff_pend, hpend]; rfl
  obtain ⟨k, t, hk, hrun, hinvt, hkept, hsub, hend⟩ := reachesWaitEnd hinv hbusy
  have hpend' : t.pend = some c := hkept.pend_eq.trans hpend
  have hbusy' : t.busy = true := hkept.busy_eq.trans hbusy
  have hsame : SameOperands t s := hkept.sameOperands
  have ⟨hdata, hkey, hpwd, hrsize, hpwlen⟩ := hsame
  refine ⟨k, t, hk, hrun, hpend', hbusy', hdata, hkey, hpwd, hrsize, hpwlen, ?_⟩
  obtain hcore | hreset | ⟨hrefused, o, hwide, hnext⟩ := hend
  · refine .inl ⟨hcore, ?_⟩
    rw [step_of_core hcore]
    refine (coreTurn_of_inv (inv_dropTurn hinvt) hpend' hd).imp_right ?_
    rintro ⟨l, hl, hw, hstop⟩
    exact ⟨l, hsame.operandLocs_eq i ▸ hl, hsame.written_eq l ▸ hw, hstop⟩
  · exact .inr (.inl ⟨hreset, hsub (reset_mem_of_nextTurn hreset)⟩)
  · exact .inr (.inr ⟨hrefused, exists_wide_hostNext hwide hnext⟩)

end Sys2Proof.Machine

/-! PROOFS. The window on the bus (20_memory.md), and the expansion of host programs (30_encoding.md): lines are
assembled one after another, and a line added at the end changes no label before it. -/

namespace Sys2Proof.Machine

/-! The 64 bus addresses (R50). -/

theorem windowOffset_eq_some_iff {a : Nat} {off : Offset} : windowOffset a = some off ↔ busAddress off = a := by
  rw [windowOffset, busAddress]
  constructor
  · intro h
    split_ifs at h with hrange
    obtain rfl := Option.some.inj h
    rw [BitVec.toNat_ofNat]
    omega
  · rintro rfl
    rw [if_pos (by have := off.isLt; omega), Nat.add_sub_cancel_left, BitVec.ofNat_toNat, BitVec.setWidth_eq]

theorem exists_busAddress_eq_iff {a : Nat} :
    (∃ off, busAddress off = a) ↔ Config.regBase ≤ a ∧ a ≤ Config.regBase + 0x3F := by
  constructor
  · rintro ⟨off, rfl⟩
    have hlt := off.isLt
    rw [busAddress]
    omega
  · rintro ⟨hmin, hmax⟩
    refine ⟨BitVec.ofNat 6 (a - Config.regBase), ?_⟩
    rw [busAddress, BitVec.toNat_ofNat]
    omega

/-- Settles O52: `windowOffset` undoes `busAddress`, and registers and offsets name each other. -/
theorem windowIsSixtyFourBytes : Obligations.WindowIsSixtyFourBytes := by
  refine ⟨fun off => ⟨windowOffset_eq_some_iff.mpr rfl, rfl⟩, fun a => ?_, fun a off => windowOffset_eq_some_iff.mp,
    offset_ofOffset, ofOffset_offset⟩
  simp only [windowOffset_eq_some_iff]
  exact exists_busAddress_eq_iff

/-! The assembler (R85, R86). -/

theorem indicesBelow_val : ∀ n ≤ 16, (indicesBelow n).map Fin.val = List.range n := by decide

section Lines
variable {all more rest : List AsmLine} {line : AsmLine} {p : Nat} {ops tail : List HostOp}

/-- A line expands to as many operations as its size says. -/
theorem AsmLine.length_of_expand (h : line.expand all p = some ops) : ops.length = line.size := by
  cases line with
  | label _ | wr _ _ | rd _ _ | cmd _ | halt | poll _ | run _ _ | clrerr =>
    obtain rfl := Option.some.inj h
    rfl
  | bnz x bit l =>
    obtain ⟨q, -, rfl⟩ := Option.map_eq_some_iff.mp h
    rfl
  | wrblk a bs =>
    obtain ⟨hlen, hops⟩ := Option.ite_none_right_eq_some.mp h
    obtain rfl := Option.some.inj hops
    simp [wrblkOps, AsmLine.size, hlen]
  | rdblk a n x =>
    obtain ⟨hlen, hops⟩ := Option.ite_none_right_eq_some.mp h
    obtain rfl := Option.some.inj hops
    have hcount := congrArg List.length (indicesBelow_val n hlen)
    simpa [rdblkOps, AsmLine.size] using hcount

/-- The first declaration of a label counts, so lines added at the end do not move it. -/
theorem labelIndex_append {l q : Nat} (h : labelIndex l p all = some q) : labelIndex l p (all ++ more) = some q := by
  induction all generalizing p with
  | nil => cases h
  | cons line rest ih =>
    cases line with
    | label k =>
      simp only [List.cons_append, labelIndex] at h ⊢
      split_ifs at h ⊢
      · exact h
      · exact ih h
    | _ => exact ih h

theorem AsmLine.expand_append (h : line.expand all p = some ops) : line.expand (all ++ more) p = some ops := by
  cases line with
  | bnz x bit l =>
    obtain ⟨q, hq, rfl⟩ := Option.map_eq_some_iff.mp h
    exact Option.map_eq_some_iff.mpr ⟨q, labelIndex_append hq, rfl⟩
  | _ => exact h

theorem assembleFrom_cons_eq_some :
    assembleFrom all p (line :: rest) = some ops ↔
      ∃ o m, line.expand all p = some o ∧ assembleFrom all (p + line.size) rest = some m ∧ ops = o ++ m := by
  rw [assembleFrom]
  cases line.expand all p with
  | none => simp
  | some o => cases assembleFrom all (p + line.size) rest <;> simp [eq_comm]

theorem assembleFrom_more_labels {lines : List AsmLine} (h : assembleFrom all p lines = some ops) :
    assembleFrom (all ++ more) p lines = some ops := by
  induction lines generalizing p ops with
  | nil => exact h
  | cons line rest ih =>
    obtain ⟨o, m, ho, hm, rfl⟩ := assembleFrom_cons_eq_some.mp h
    exact assembleFrom_cons_eq_some.mpr ⟨o, m, AsmLine.expand_append ho, ih hm, rfl⟩

/-- The lines after `before` start at the step index after its operations. -/
theorem assembleFrom_append {before : List AsmLine} (h : assembleFrom all p before = some ops)
    (hrest : assembleFrom all (p + ops.length) rest = some tail) :
    assembleFrom all p (before ++ rest) = some (ops ++ tail) := by
  induction before generalizing p ops with
  | nil =>
    obtain rfl := Option.some.inj h
    exact hrest
  | cons line lines ih =>
    obtain ⟨o, m, ho, hm, rfl⟩ := assembleFrom_cons_eq_some.mp h
    rw [List.length_append, AsmLine.length_of_expand ho, ← Nat.add_assoc] at hrest
    exact assembleFrom_cons_eq_some.mpr ⟨o, m ++ tail, ho, ih hm hrest, List.append_assoc o m tail⟩

theorem assembleFrom_singleton (h : line.expand all p = some ops) : assembleFrom all p [line] = some ops :=
  assembleFrom_cons_eq_some.mpr ⟨ops, [], h, rfl, (List.append_nil ops).symm⟩

theorem assemble_singleton (h : line.expand [line] 0 = some ops) : assemble [line] = some ops :=
  assembleFrom_singleton h

theorem assemble_append_line {before : List AsmLine} (h : assemble before = some ops)
    (hline : line.expand (before ++ [line]) ops.length = some tail) :
    assemble (before ++ [line]) = some (ops ++ tail) := by
  refine assembleFrom_append (assembleFrom_more_labels h) (assembleFrom_singleton ?_)
  rwa [Nat.zero_add]

end Lines

/-! Blocks: operation k of a block is at the array's base plus k (R51, R86). -/

theorem wrblkOps_getElem? (a : ArrayName) {bs : List Byte} (hlen : bs.length ≤ 16) {k : Nat} (hk : k < bs.length) :
    (wrblkOps a bs)[k]? = some (.wr (a.reg ⟨k, by omega⟩).offset 1 bs[k]) := by
  have hk16 : k < 16 := by omega
  simp [wrblkOps, wrOp, hk, hk16]

theorem ArrayName.offset_reg {a : ArrayName} {base : Nat}
    (h : (a = .data ∧ base = 0x00) ∨ (a = .key ∧ base = 0x10) ∨ (a = .pwd ∧ base = 0x20)) (k : Fin 16) :
    (a.reg k).offset = BitVec.ofNat 6 (base + k.val) := by
  obtain ⟨rfl, rfl⟩ | ⟨rfl, rfl⟩ | ⟨rfl, rfl⟩ := h
  · rw [Nat.zero_add]
    rfl
  · rfl
  · rfl

theorem rdblkOps_data {n : Nat} (hn : n ≤ 16) (x : Nat) :
    rdblkOps .data n x = (List.range n).map fun k => .rd (BitVec.ofNat 6 k) 1 (x + k) := by
  rw [← indicesBelow_val n hn, List.map_map]
  rfl

/-- Settles O5: a line's expansion stands after the operations before it, so a poll branches back to its own index. -/
theorem pseudoOperationsExpand : Obligations.PseudoOperationsExpand := by
  refine ⟨fun before ops t h => assemble_append_line h rfl, fun before ops i t h => assemble_append_line h rfl,
    fun a base bs hbase hlen => ?wrblk, fun n x hn => ?rdblk, assemble_singleton rfl⟩
  case wrblk =>
    have hexpand : (AsmLine.wrblk a bs).expand [.wrblk a bs] 0 = some (wrblkOps a bs) := if_pos hlen
    refine ⟨_, assemble_singleton hexpand, AsmLine.length_of_expand hexpand, fun k hk => ?_⟩
    rw [wrblkOps_getElem? a hlen hk, ArrayName.offset_reg hbase]
  case rdblk =>
    rw [← rdblkOps_data hn]
    exact assemble_singleton (if_pos hn)

end Sys2Proof.Machine
